-- ==== Sys2Proof/Word.lean ====
section
/-! DEFINITION. The one word of the machine: every register, memory cell, code byte, operand, return address and I/O
item of the VCE engine is an unsigned byte (R6, R8). -/

namespace Sys2Proof

/-- A byte: an unsigned integer in 0..255, bits numbered 7 down to 0 (R8). -/
abbrev Byte := BitVec 8

end Sys2Proof
end

