-- ==== Sys2Proof/Syntax.lean ====
section
/-! DEFINITION. The VCE byte ISA as syntax: its 16 mnemonics (R2) and its instructions with their operands (R71). -/

namespace Sys2Proof

/-- The 16 mnemonics, in the order in which the source lists them (R2, R72). -/
inductive Mnemonic where
  | nop | load | add | sub | store | and | or | xor | read | write | jmp | call | ret | beq | bne | int
deriving DecidableEq, Repr

/-- An instruction with its operands, one constructor for each row of the opcode table.
Every operand is the raw byte that follows the opcode (R75): `reg` is a register index, of which only 0..3 name a
register; `val` an 8-bit immediate; `addr` an 8-bit absolute address (code for jumps, calls and branches, data for
STORE). -/
inductive Instr where
  /-- NOP (R120), format Z. -/
  | nop
  /-- LOAD reg, val (R121), format RI. -/
  | load (reg val : Byte)
  /-- ADD reg, val (R132), format RI. -/
  | add (reg val : Byte)
  /-- SUB reg, val (R133), format RI. -/
  | sub (reg val : Byte)
  /-- STORE reg, addr (R122), format RA. -/
  | store (reg addr : Byte)
  /-- AND reg, val (R134), format RI. -/
  | and (reg val : Byte)
  /-- OR reg, val (R135), format RI. -/
  | or (reg val : Byte)
  /-- XOR reg, val (R136), format RI. -/
  | xor (reg val : Byte)
  /-- READ reg (R150), format R. -/
  | read (reg : Byte)
  /-- WRITE reg (R152), format R. -/
  | write (reg : Byte)
  /-- JMP addr (R160), format A. -/
  | jmp (addr : Byte)
  /-- CALL addr (R162), format A. -/
  | call (addr : Byte)
  /-- RET (R164), format Z. -/
  | ret
  /-- BEQ addr (R166), format A. -/
  | beq (addr : Byte)
  /-- BNE addr (R167), format A. -/
  | bne (addr : Byte)
  /-- INT (R180), format Z. -/
  | int
deriving DecidableEq, Repr

end Sys2Proof
end

