-- ==== Sys2Proof/Config.lean ====
section
/-! DEFINITION. What is fixed for a run but left open by the source: the parameters `OPCODE_OF`, `PROG` and
`CSTACK_CAP` of R7. They are plain data, so a claim can quantify over all of them. (The fourth parameter, `INPUT`, is
the `input` field of the state.) The spec leaves no value undefined, so there is no free value here. -/

namespace Sys2Proof

/-- The parameter `OPCODE_OF : Mnemonic -> Byte` (R7, R73), written as the table of its sixteen values.
R7 asks for an injective map: `OpcodeMap.wf` (WellFormed.lean) says so. -/
structure OpcodeMap where
  nop : Byte
  load : Byte
  add : Byte
  sub : Byte
  store : Byte
  and : Byte
  or : Byte
  xor : Byte
  read : Byte
  write : Byte
  jmp : Byte
  call : Byte
  ret : Byte
  beq : Byte
  bne : Byte
  int : Byte
deriving DecidableEq, Repr

/-- The parameters of a run (R7). No step changes them (R52). -/
structure Config where
  /-- `OPCODE_OF`: the opcode byte of each mnemonic (R73). -/
  opcodeOf : OpcodeMap
  /-- `PROG`: the program image, the bytes of code space from address 0; its length is `L` (R50, R58). -/
  prog : List Byte
  /-- `CSTACK_CAP`: the call stack's capacity, `none` meaning unbounded (R31). -/
  cstackCap : Option Nat
deriving DecidableEq, Repr

/-- `L = PROG_LEN`, the length of the program image (R7). -/
abbrev Config.progLen (c : Config) : Nat := c.prog.length

end Sys2Proof
end

