-- ==== Sys2Proof/Decode.lean ====
section
/-! DEFINITION. Instruction encoding: the opcode table, the variable-length decoder, total on any bytes and rejecting by
name, and the encoder written from the same table (30_encoding.md). -/

namespace Sys2Proof

/-! ### The opcode table -/

/-- The mnemonics in listing order (R72, R73). -/
def Mnemonic.all : List Mnemonic :=
  [.nop, .load, .add, .sub, .store, .and, .or, .xor, .read, .write, .jmp, .call, .ret, .beq, .bne, .int]

/-- The operand count of a mnemonic (R72). -/
def Mnemonic.arity : Mnemonic → Nat
  | .nop => 0 | .load => 2 | .add => 2 | .sub => 2 | .store => 2 | .and => 2 | .or => 2 | .xor => 2
  | .read => 1 | .write => 1 | .jmp => 1 | .call => 1 | .ret => 0 | .beq => 1 | .bne => 1 | .int => 0

/-- `OPCODE_OF m` (R7). -/
def OpcodeMap.of (om : OpcodeMap) : Mnemonic → Byte
  | .nop => om.nop | .load => om.load | .add => om.add | .sub => om.sub
  | .store => om.store | .and => om.and | .or => om.or | .xor => om.xor
  | .read => om.read | .write => om.write | .jmp => om.jmp | .call => om.call
  | .ret => om.ret | .beq => om.beq | .bne => om.bne | .int => om.int

/-- The default `OPCODE_OF`: position in the source's listing, counting from 0 (R73).
DESIGN CHOICE of the spec (decision D1), log entry 2: the source lists no opcode value. -/
def OpcodeMap.default : OpcodeMap where
  nop := 0x00
  load := 0x01
  add := 0x02
  sub := 0x03
  store := 0x04
  and := 0x05
  or := 0x06
  xor := 0x07
  read := 0x08
  write := 0x09
  jmp := 0x0A
  call := 0x0B
  ret := 0x0C
  beq := 0x0D
  bne := 0x0E
  int := 0x0F

/-- `OPCODE_OF^-1`: the mnemonic of a valid opcode, nothing for any other byte (R74, R103). -/
def OpcodeMap.mnemonicOf? (om : OpcodeMap) (b : Byte) : Option Mnemonic :=
  Mnemonic.all.find? fun m => om.of m == b

/-! ### Instructions and their parts -/

/-- The instruction of a mnemonic with its operands `op1` and `op2`; an operand beyond the arity is not looked at
(R71, R109). -/
def Instr.ofOperands (m : Mnemonic) (op1 op2 : Byte) : Instr :=
  match m with
  | .nop => .nop
  | .load => .load op1 op2
  | .add => .add op1 op2
  | .sub => .sub op1 op2
  | .store => .store op1 op2
  | .and => .and op1 op2
  | .or => .or op1 op2
  | .xor => .xor op1 op2
  | .read => .read op1
  | .write => .write op1
  | .jmp => .jmp op1
  | .call => .call op1
  | .ret => .ret
  | .beq => .beq op1
  | .bne => .bne op1
  | .int => .int

/-- The mnemonic of an instruction. -/
def Instr.mnemonic : Instr → Mnemonic
  | .nop => .nop | .load _ _ => .load | .add _ _ => .add | .sub _ _ => .sub
  | .store _ _ => .store | .and _ _ => .and | .or _ _ => .or | .xor _ _ => .xor
  | .read _ => .read | .write _ => .write | .jmp _ => .jmp | .call _ => .call
  | .ret => .ret | .beq _ => .beq | .bne _ => .bne | .int => .int

/-- The operand bytes in the order in which they are written and encoded (R71, R83). -/
def Instr.operands : Instr → List Byte
  | .nop => [] | .ret => [] | .int => []
  | .load reg val => [reg, val] | .add reg val => [reg, val] | .sub reg val => [reg, val]
  | .and reg val => [reg, val] | .or reg val => [reg, val] | .xor reg val => [reg, val]
  | .store reg addr => [reg, addr]
  | .read reg => [reg] | .write reg => [reg]
  | .jmp addr => [addr] | .call addr => [addr] | .beq addr => [addr] | .bne addr => [addr]

/-- The length in bytes of a mnemonic's instructions: the opcode and its operands (R70, R76). -/
def Mnemonic.length (m : Mnemonic) : Nat := 1 + m.arity

/-- The length in bytes of an instruction (R70). -/
def Instr.length (i : Instr) : Nat := i.mnemonic.length

/-! ### The decoder -/

/-- Why bytes decode to no instruction. -/
inductive DecodeError where
  /-- There is no byte at all: nothing to decode. -/
  | noOpcode
  /-- The first byte is not a valid opcode (R74). -/
  | unknownOpcode (opcode : Byte)
  /-- The bytes end before the last operand of this opcode (R104). -/
  | truncated (opcode : Byte)
deriving DecidableEq, Repr

/-- Decode the instruction at the head of a byte list and return it with the bytes after it.
The length is found from the opcode alone (R76); operands are raw bytes in order (R75, R83). -/
def decode (om : OpcodeMap) : List Byte → Except DecodeError (Instr × List Byte)
  | [] => .error .noOpcode
  | opcode :: rest =>
    match om.mnemonicOf? opcode with
    | none => .error (.unknownOpcode opcode)
    | some m =>
      if rest.length < m.arity then .error (.truncated opcode)
      else .ok (Instr.ofOperands m (rest.getD 0 0) (rest.getD 1 0), rest.drop m.arity)

/-- Decode a byte list instruction by instruction to its end; nothing if some instruction is unknown or truncated.
`fuel` bounds the number of instructions: the list's length is always enough. -/
def decodeAll (om : OpcodeMap) : (fuel : Nat) → List Byte → Option (List Instr)
  | _, [] => some []
  | 0, _ :: _ => none
  | fuel + 1, b :: bs =>
    match decode om (b :: bs) with
    | .error _ => none
    | .ok (i, rest) => (decodeAll om fuel rest).map (i :: ·)

/-! ### The encoder -/

/-- The bytes of an instruction: its opcode, then its operands in order (R70, R71, R83). -/
def encode (om : OpcodeMap) (i : Instr) : List Byte := om.of i.mnemonic :: i.operands

/-- The bytes of an instruction sequence. -/
def encodeAll (om : OpcodeMap) (is : List Instr) : List Byte := is.flatMap (encode om)

/-! ### The opcode table's numbering -/

/-- The longest instruction, in bytes (R70). -/
def maxLength : Nat := 3

/-- The bytes of an instruction given as the number the opcode table's numbering makes of it: byte k is bits
8k+7..8k, the bits above `nbits` are 0, and as many bytes are laid out as the longest instruction has. -/
def tableWordBytes (nbits w : Nat) : List Byte :=
  (List.range maxLength).map fun k => BitVec.ofNat 8 (w % 2 ^ nbits / 256 ^ k)

/-- What the decoder reads, under the default `OPCODE_OF`, from an instruction numbered as the opcode table numbers
it. -/
def decodeTableWord (nbits w : Nat) : Option Instr :=
  match decode OpcodeMap.default (tableWordBytes nbits w) with
  | .ok (i, _) => some i
  | .error _ => none

end Sys2Proof
end

