-- ==== Sys2Proof/Machine/State.lean ====
section
/-! DEFINITION. Everything the spec gives the machine, as plain data (10_state.md, R7), the state after reset (R36,
R230), and the reasons a step can stop. -/

namespace Sys2Proof.Machine

/-- The run state (R27). -/
inductive RunState where
  | running | haltedNormal | haltedError
deriving DecidableEq, Repr

/-- The engine's error kinds (R200, R203). -/
inductive ErrorKind where
  | unknownOpcode | truncatedInstruction | callStackOverflow | invalidIndex | callStackUnderflow
deriving DecidableEq, Repr

/-- One entry `(kind, info)` of the diagnostic log, with the info of R203; `origin` is the address A of the
instruction's opcode byte (`at` in the spec). -/
inductive Diag where
  | unknownOpcode (opcode origin : Byte)
  | truncatedInstruction (opcode origin : Byte)
  | callStackOverflow (origin : Byte)
  | invalidIndex (index origin : Byte)
  | callStackUnderflow (origin : Byte)
deriving DecidableEq, Repr

/-- Data memory: (address, byte) pairs in one canonical form, addresses strictly rising, no pair holding the value an
unlisted address reads as (log entry 10). -/
abbrev Memory := List Host.Cell

/-- What an unlisted address of data memory reads as: data memory is zero-initialized (R29, R36). -/
abbrev Memory.unlisted : Byte := 0

/-- The state of the engine (10_state.md) with the parameters of the run (R7). -/
structure State where
  /-- The run's parameters `OPCODE_OF`, `PROG` (with `L`) and `CSTACK_CAP`; no step changes them (R7, log entry 1). -/
  cfg : Config
  /-- The general registers `x[0..3]` (R20). -/
  x : Vector Byte 4
  /-- The program counter: the next byte to fetch (R23). -/
  pc : Byte
  /-- The instruction register: the most recently fetched opcode byte (R25). -/
  ir : Byte
  /-- Data memory (R29). -/
  mem : Memory
  /-- The call stack of return addresses (R30), top entry first (log entry 9). -/
  cstack : List Byte
  /-- The run state (R27). -/
  run : RunState
  /-- The diagnostic log, oldest entry first (R35). -/
  diag : List Diag
  /-- The bytes WRITE emitted, oldest first (R35). -/
  out : List Byte
  /-- `in_pos`: how many input bytes READ consumed (R35). -/
  inPos : Nat
  /-- `int_acks`: how many INT acknowledgements were made (R35). -/
  intAcks : Nat
  /-- `INPUT`: the bytes of the input stream the host has delivered so far, byte 1 of the stream first (R7, R151, log
  entry 4). -/
  input : List Byte
  /-- The register operand of a READ that has been fetched and waits inside its step for a byte (R150, log entry 5). -/
  pendingRead : Option Byte
deriving DecidableEq, Repr

/-- Why a step stops with a fault: it never does. Every error of R203 is a next state, with its diagnostic appended and,
for a fatal one, the run state Halted-Error (R201, R202, log entry 7), and no data address is outside 0..255 (R57). -/
inductive Fault
deriving DecidableEq, Repr

/-- Why a step is refused. -/
inductive Refusal where
  /-- The instruction has no meaning yet; only `exec`'s arms could raise it, and none does. Safe: nothing is claimed
  about the instruction. -/
  | notModelled (mnemonic : String)
deriving DecidableEq, Repr

/-- What a step or a meaning answers. -/
abbrev Result := Host.Outcome State Fault Refusal

/-- Reset with the parameters and the input source the host binds for the run (R230, R234, D20): the zeroed state. -/
def State.resetWith (cfg : Config) (input : List Byte) : State where
  cfg := cfg
  x := #v[0, 0, 0, 0]
  pc := 0
  ir := 0
  mem := []
  cstack := []
  run := .running
  diag := []
  out := []
  inPos := 0
  intAcks := 0
  input := input
  pendingRead := none

/-- The parameters before the host binds a program: the default `OPCODE_OF` and `CSTACK_CAP` of R7, and an empty image
(DESIGN CHOICE, log entry 11). -/
def Config.unbound : Config where
  opcodeOf := OpcodeMap.default
  prog := []
  cstackCap := none

/-- The machine right after reset, before a program or any input is bound. -/
def State.reset : State := State.resetWith Config.unbound []

end Sys2Proof.Machine
end

