-- ==== Sys2Proof/Machine/Ops.lean ====
section
/-! DEFINITION. The named operations on data memory, code space, the call stack, the diagnostic log and the channels. -/

namespace Sys2Proof.Machine

/-! ### Data memory (R29, R50, R56) -/

/-- The byte at an address. -/
def Memory.read : Memory → Nat → Byte
  | [], _ => Memory.unlisted
  | (k, v) :: m, a => if k = a then v else Memory.read m a

/-- Put a pair before another memory's pairs, unless its value is what an unlisted address reads as. -/
def Memory.cons (a : Nat) (v : Byte) (m : Memory) : Memory :=
  if v = Memory.unlisted then m else (a, v) :: m

/-- `MemWrite(a, 1, v)` (R9), keeping the canonical form. -/
def Memory.write : Memory → Nat → Byte → Memory
  | [], a, v => Memory.cons a v []
  | (k, u) :: m, a, v =>
    if a < k then Memory.cons a v ((k, u) :: m)
    else if a = k then Memory.cons a v m
    else (k, u) :: Memory.write m a v

/-- The canonical form over addresses from `lo` up: rising, none above 255, no value an unlisted address reads as. -/
def Memory.wfFrom : Nat → Memory → Bool
  | _, [] => true
  | lo, (k, v) :: m => decide (lo ≤ k ∧ k < 256 ∧ v ≠ Memory.unlisted) && Memory.wfFrom (k + 1) m

/-- Data memory is in canonical form over the addresses 0..255 (R29). -/
def Memory.wf (m : Memory) : Bool := Memory.wfFrom 0 m

/-- `MemWrite(addr, 1, v)` on the state (R9). -/
def State.memWrite (s : State) (addr v : Byte) : State := { s with mem := s.mem.write addr.toNat v }

/-! ### Code space (R50, R62) -/

/-- The code read interface: `Prog(a)`, nothing at `a >= L` (R9, R62). -/
def State.codeRead? (s : State) (a : Byte) : Option Byte := s.cfg.prog[a.toNat]?

/-- The bytes the engine can fetch from `pc` on, at most `fuel` of them: addresses rise modulo 256 (R54, R70) and the
first address at or beyond `L` ends them (R101, R104). -/
def State.codeBytes (s : State) : (fuel : Nat) → (pc : Byte) → List Byte
  | 0, _ => []
  | fuel + 1, pc =>
    match s.codeRead? pc with
    | none => []
    | some b => b :: State.codeBytes s fuel (pc + 1)

/-- Account for fetched bytes: the first is an opcode and goes to `ir`, and `pc` advances by their number modulo 256
(R23, R102, R104). This is the one place of linear pc arithmetic (R106). -/
def State.consume (s : State) (bytes : List Byte) : State :=
  { s with ir := bytes.headD s.ir, pc := s.pc + BitVec.ofNat 8 bytes.length }

/-- The address A of the instruction being executed, of the given mnemonic: while it executes, `pc` is
`(A + 1 + arity(m)) mod 256` (R106, log entry 8). -/
def State.origin (s : State) (m : Mnemonic) : Byte := s.pc - BitVec.ofNat 8 m.length

/-! ### Errors and halts (R200 to R203). There is no trap entry and no trap return (R208, R209): these two operations are
all that an error does. -/

/-- The kind of a diagnostic (R203). -/
def Diag.kind : Diag → ErrorKind
  | .unknownOpcode _ _ => .unknownOpcode
  | .truncatedInstruction _ _ => .truncatedInstruction
  | .callStackOverflow _ => .callStackOverflow
  | .invalidIndex _ _ => .invalidIndex
  | .callStackUnderflow _ => .callStackUnderflow

/-- The numeric code of an error kind (R203). -/
def ErrorKind.code : ErrorKind → Nat
  | .unknownOpcode => 1
  | .truncatedInstruction => 2
  | .callStackOverflow => 3
  | .invalidIndex => 16
  | .callStackUnderflow => 17

/-- Whether an error kind is fatal (R200, R203). -/
def ErrorKind.fatal : ErrorKind → Bool
  | .unknownOpcode => true
  | .truncatedInstruction => true
  | .callStackOverflow => true
  | .invalidIndex => false
  | .callStackUnderflow => false

/-- `report K(info)`: a non-fatal error appends its diagnostic and execution continues (R9, R202). -/
def State.report (s : State) (d : Diag) : State := { s with diag := s.diag ++ [d] }

/-- `raise K(info)`: a fatal error appends its diagnostic and halts the run; every other piece of state stays as it
stood at that moment (R9, R201). -/
def State.raise (s : State) (d : Diag) : State := { s.report d with run := .haltedError }

/-- `halt_normal` (R9, R101). -/
def State.haltNormal (s : State) : State := { s with run := .haltedNormal }

/-! ### The call stack (R30, R31) -/

/-- The stack is bounded and holds as many entries as its capacity (R31, R162). -/
def State.cstackFull (s : State) : Bool :=
  match s.cfg.cstackCap with
  | none => false
  | some cap => decide (s.cstack.length = cap)

/-- `Push(v)` (R30). -/
def State.push (s : State) (v : Byte) : State := { s with cstack := v :: s.cstack }

/-! ### The program counter -/

/-- `pc <- target`, an absolute set (R23). -/
def State.setPc (s : State) (target : Byte) : State := { s with pc := target }

/-! ### The channels (R62) -/

/-- `InRead()` with its count: the next byte of the input stream, if the host has delivered it, and the state with that
byte consumed and no READ waiting (R150, R151). Nothing while the source has not delivered it. -/
def State.inRead? (s : State) : Option (Byte × State) :=
  (s.input[s.inPos]?).map fun v => (v, { s with inPos := s.inPos + 1, pendingRead := none })

/-- The READ of a register waits inside its step: only the fetches already made have happened (R150). -/
def State.await (s : State) (reg : Byte) : State := { s with pendingRead := some reg }

/-- `OutEmit(v)`: the sink accepts every byte at once (R152). -/
def State.outEmit (s : State) (v : Byte) : State := { s with out := s.out ++ [v] }

/-- One acknowledge event on the int-ack interface (R180). -/
def State.ackInt (s : State) : State := { s with intAcks := s.intAcks + 1 }

end Sys2Proof.Machine
end

