-- ==== Sys2Proof/Machine/Operands.lean ====
section
/-! DEFINITION. The operand forms. There are three kinds (R75): `val` and `addr` are the raw byte itself, so they need
no operation; a register operand goes through the three helpers of R108, the only way from an instruction to the
register file. -/

namespace Sys2Proof.Machine

/-- `ReadReg(i)`: the register, or the substituted zero for an index of 4 or more (R22, R108). -/
def State.readReg (s : State) (i : Byte) : Byte := if h : i.toNat < 4 then s.x[i.toNat] else 0

/-- `WriteReg(i, v)`: the register takes the value; a write to an index of 4 or more is ignored (R22, R108). -/
def State.writeReg (s : State) (i v : Byte) : State :=
  if h : i.toNat < 4 then { s with x := s.x.set i.toNat v } else s

/-- `CheckReg(i)`, made once by an instruction that names register i: an index of 4 or more reports `InvalidIndex` with
the instruction's address (R108). `m` is the instruction's mnemonic, which gives its address. -/
def State.checkReg (s : State) (m : Mnemonic) (i : Byte) : State :=
  if i.toNat < 4 then s else s.report (.invalidIndex i (s.origin m))

end Sys2Proof.Machine
end

