-- ==== Sys2Proof/Machine/Flags.lean ====
section
/-! DEFINITION. The engine has no status flags and no condition codes, and no instruction writes a flag (R26). The one
condition an instruction tests is computed afresh from the registers by the branch itself (R165). -/

namespace Sys2Proof.Machine

/-- The condition of BEQ, whose negation is BNE's: `x[0] = x[1]` as full 8-bit values (R165). -/
def State.branchEqual (s : State) : Bool := s.x[0] == s.x[1]

end Sys2Proof.Machine
end

