-- ==== Sys2Proof/Machine/Alu.lean ====
section
/-! DEFINITION. The byte ALU (R130) and the execute phases of ADD, SUB, AND, OR and XOR (42_alu.md). -/

namespace Sys2Proof.Machine

/-! ### The ALU's functions: total, stateless, no flag (R130) -/

/-- `(a + b) mod 256`. -/
def aluAdd (a b : Byte) : Byte := a + b

/-- `(a - b) mod 256`, the mathematical mod. -/
def aluSub (a b : Byte) : Byte := a - b

/-- `a AND b`, bit by bit. -/
def aluAnd (a b : Byte) : Byte := a &&& b

/-- `a OR b`, bit by bit. -/
def aluOr (a b : Byte) : Byte := a ||| b

/-- `a XOR b`, bit by bit. -/
def aluXor (a b : Byte) : Byte := a ^^^ b

/-- The ALU's `nop`: 0 for all inputs. No instruction uses it, NOP least of all (R120, R130). -/
def aluNop (_a _b : Byte) : Byte := 0

/-! ### The instructions -/

/-- What the ALU instructions share: check the register, read its old value, apply the function to it and the immediate,
write the result back (R131). -/
def aluOp (m : Mnemonic) (f : Byte → Byte → Byte) (reg val : Byte) (s : State) : Result :=
  .next ((s.checkReg m reg).writeReg reg (f (s.readReg reg) val))

/-- ADD reg, val (R132). -/
def execAdd (reg val : Byte) (s : State) : Result := aluOp .add aluAdd reg val s

/-- SUB reg, val: the register is the minuend (R133). -/
def execSub (reg val : Byte) (s : State) : Result := aluOp .sub aluSub reg val s

/-- AND reg, val, the second operand an immediate (R134, conflict C1). -/
def execAnd (reg val : Byte) (s : State) : Result := aluOp .and aluAnd reg val s

/-- OR reg, val (R135). -/
def execOr (reg val : Byte) (s : State) : Result := aluOp .or aluOr reg val s

/-- XOR reg, val (R136). -/
def execXor (reg val : Byte) (s : State) : Result := aluOp .xor aluXor reg val s

end Sys2Proof.Machine
end

