-- ==== Sys2Proof/Machine/ControlFlow.lean ====
section
/-! DEFINITION. The execute phases of JMP, CALL, RET, BEQ and BNE (44_control_flow.md). Targets are absolute and
unchecked (R168); `pc` already stands past the instruction (R106). -/

namespace Sys2Proof.Machine

/-- JMP addr (R160). -/
def execJmp (addr : Byte) (s : State) : Result := .next (s.setPc addr)

/-- CALL addr: a full bounded stack is the fatal `CallStackOverflow`, with nothing pushed and `pc` left past the operand;
otherwise push `pc`, the return address, and jump (R162). -/
def execCall (addr : Byte) (s : State) : Result :=
  if s.cstackFull then .next (s.raise (.callStackOverflow (s.origin .call)))
  else .next ((s.push s.pc).setPc addr)

/-- RET: pop into `pc`; on an empty stack report `CallStackUnderflow` and go on with the next byte (R164, conflict C7). -/
def execRet (s : State) : Result :=
  match s.cstack with
  | [] => .next (s.report (.callStackUnderflow (s.origin .ret)))
  | target :: rest => .next ({ s with cstack := rest }.setPc target)

/-- BEQ addr: jump if `x[0] = x[1]`, else fall through (R166). -/
def execBeq (addr : Byte) (s : State) : Result := .next (if s.branchEqual then s.setPc addr else s)

/-- BNE addr: jump if `x[0] != x[1]`, else fall through (R167). -/
def execBne (addr : Byte) (s : State) : Result := .next (if s.branchEqual then s else s.setPc addr)

end Sys2Proof.Machine
end

