-- ==== Sys2Proof/Machine/DataMovement.lean ====
section
/-! DEFINITION. The execute phases of NOP, LOAD and STORE (41_data_movement.md). -/

namespace Sys2Proof.Machine

/-- NOP: no state change (R120). -/
def execNop (s : State) : Result := .next s

/-- LOAD reg, val: the register takes the immediate (R121). -/
def execLoad (reg val : Byte) (s : State) : Result := .next ((s.checkReg .load reg).writeReg reg val)

/-- STORE reg, addr: the data cell takes the register; from an index of 4 or more it takes the substituted zero
(R122). -/
def execStore (reg addr : Byte) (s : State) : Result :=
  .next ((s.checkReg .store reg).memWrite addr (s.readReg reg))

end Sys2Proof.Machine
end

