-- ==== Sys2Proof/Machine/Interrupt.lean ====
section
/-! DEFINITION. The execute phase of INT (45_interrupt.md), the only interrupt-related instruction (R181). -/

namespace Sys2Proof.Machine

/-- INT: one acknowledge event and no architectural effect; no vector, no handler, no mode (R180). -/
def execInt (s : State) : Result := .next s.ackInt

end Sys2Proof.Machine
end

