-- ==== Sys2Proof/Machine/Io.lean ====
section
/-! DEFINITION. The execute phases of READ and WRITE (43_io.md). -/

namespace Sys2Proof.Machine

/-- READ reg: take the next input byte, count it, then check and write the register; the byte is consumed even if the
register does not exist (R150). While the source has not delivered it, the READ waits inside its step, with no change
beyond the fetches and no report. A step on the waiting state runs this meaning again. -/
def execRead (reg : Byte) (s : State) : Result :=
  match s.inRead? with
  | some (v, t) => .next ((t.checkReg .read reg).writeReg reg v)
  | none => .next (s.await reg)

/-- WRITE reg: emit the register, or the substituted zero, on the output channel (R152). -/
def execWrite (reg : Byte) (s : State) : Result :=
  .next ((s.checkReg .write reg).outEmit (s.readReg reg))

end Sys2Proof.Machine
end

