-- ==== Sys2Proof/Machine/Dispatch.lean ====
section
/-! DEFINITION. The execute phase: one meaning for each instruction (R106). -/

namespace Sys2Proof.Machine

def exec (i : Instr) (s : State) : Host.Outcome State Fault Refusal :=
  match i with
  -- NOP, LOAD, STORE
  | .nop => Sys2Proof.Machine.execNop s
  | .load reg val => Sys2Proof.Machine.execLoad reg val s
  | .store reg addr => Sys2Proof.Machine.execStore reg addr s
  -- the byte ALU
  | .add reg val => Sys2Proof.Machine.execAdd reg val s
  | .sub reg val => Sys2Proof.Machine.execSub reg val s
  | .and reg val => Sys2Proof.Machine.execAnd reg val s
  | .or reg val => Sys2Proof.Machine.execOr reg val s
  | .xor reg val => Sys2Proof.Machine.execXor reg val s
  -- the channels
  | .read reg => Sys2Proof.Machine.execRead reg s
  | .write reg => Sys2Proof.Machine.execWrite reg s
  -- control flow
  | .jmp addr => Sys2Proof.Machine.execJmp addr s
  | .call addr => Sys2Proof.Machine.execCall addr s
  | .ret => Sys2Proof.Machine.execRet s
  | .beq addr => Sys2Proof.Machine.execBeq addr s
  | .bne addr => Sys2Proof.Machine.execBne addr s
  -- the interrupt stub
  | .int => Sys2Proof.Machine.execInt s

end Sys2Proof.Machine
end

