-- ==== Sys2Proof/Machine/Fetch.lean ====
section
/-! DEFINITION. The phases of a step before execute: halt check, opcode fetch, decode and operand fetch (R101 to R105),
over the decoder of Decode.lean; and the placing of an instruction where the next step fetches it. -/

namespace Sys2Proof.Machine

/-- How the phases before execute end. -/
inductive Fetched where
  /-- An instruction with all its operands, and the state with the fetches made (R102, R104). -/
  | run (i : Instr) (s : State)
  /-- The step ends without an execute phase: a normal halt or a fatal error (R101, R103, R105). -/
  | ended (s : State)
deriving DecidableEq, Repr

/-- Halt check, fetch and decode at `pc`. No byte to fetch is the normal halt (R101); an unknown opcode is fatal with
only the opcode consumed (R103); a missing operand byte is fatal with every byte up to the image's end consumed (R104,
R105). -/
def fetchDecode (s : State) : Fetched :=
  let bytes := s.codeBytes maxLength s.pc
  match decode s.cfg.opcodeOf bytes with
  | .error .noOpcode => .ended s.haltNormal
  | .error (.unknownOpcode opcode) =>
    .ended ((s.consume (bytes.take 1)).raise (.unknownOpcode opcode s.pc))
  | .error (.truncated opcode) =>
    .ended ((s.consume bytes).raise (.truncatedInstruction opcode s.pc))
  | .ok (i, _) => .run i (s.consume (bytes.take i.length))

/-- A program image with some bytes laid over it from an address on, addresses rising modulo 256; the image grows, with
zero bytes, where an address lies beyond its end. -/
def overlay (prog : List Byte) (a : Byte) : List Byte → List Byte
  | [] => prog
  | b :: bs =>
    overlay ((prog ++ List.replicate (a.toNat + 1 - prog.length) 0).set a.toNat b) (a + 1) bs

/-- The host's load of one instruction, numbered as the opcode table numbers it, where the next step fetches: the bytes go
to `pc` on, and the run is Running, with no READ waiting and the opcode map that numbering is for (log entry 11). -/
def placeWord (s : State) (nbits w : Nat) : State :=
  { s with
    cfg := { s.cfg with
      opcodeOf := OpcodeMap.default
      prog := overlay s.cfg.prog s.pc (tableWordBytes nbits w) }
    run := .running
    pendingRead := none }

end Sys2Proof.Machine
end

