-- ==== Sys2Proof/Machine/Step.lean ====
section
/-! DEFINITION. One step of the engine (R100 to R107). -/

namespace Sys2Proof.Machine

/-- One step. In a halted state no step is enabled and both halts are absorbing: the state answers itself (R28, R100, log
entry 3). A READ that waits goes on with its own execute phase (R150, log entry 5). Otherwise fetch, decode and
execute. -/
def step (s : State) : Host.Outcome State Fault Refusal :=
  match s.run with
  | .haltedNormal => .next s
  | .haltedError => .next s
  | .running =>
    match s.pendingRead with
    | some reg => exec (.read reg) s
    | none =>
      match fetchDecode s with
      | .ended t => .next t
      | .run i t => exec i t

/-- The state with one instruction, numbered as the opcode table numbers it, placed where `step` fetches next. -/
def State.withFetchWord (s : State) (nbits w : Nat) : State := placeWord s nbits w

end Sys2Proof.Machine
end

