-- ==== Sys2Proof/WellFormed.lean ====
section
/-! DEFINITION. Checks that the types alone do not make. Every operand is a byte and every byte is a legal operand (R75,
R82), so an instruction needs no check to be encoded; what is checked is the opcode map (R7), whether an instruction
names a register that exists (R22), and whether a whole image decodes (R236). -/

namespace Sys2Proof

/-- `OPCODE_OF` is injective, as R7 asks: no two mnemonics share a byte. -/
def OpcodeMap.wf (om : OpcodeMap) : Bool := decide (Mnemonic.all.map om.of).Nodup

/-- The register operand of an instruction, if it has one (R71). -/
def Instr.regOperand? : Instr → Option Byte
  | .load reg _ => some reg | .add reg _ => some reg | .sub reg _ => some reg
  | .store reg _ => some reg | .and reg _ => some reg | .or reg _ => some reg | .xor reg _ => some reg
  | .read reg => some reg | .write reg => some reg
  | .nop => none | .jmp _ => none | .call _ => none | .ret => none
  | .beq _ => none | .bne _ => none | .int => none

/-- Every register the instruction names exists: an index in 0..3 (R22). An instruction that fails this check still
encodes, decodes and runs: it reports `InvalidIndex` (R82, R108). -/
def Instr.regInRange (i : Instr) : Bool :=
  match i.regOperand? with
  | some reg => decide (reg.toNat < 4)
  | none => true

/-- The image is a sequence of whole instructions under its opcode map, read in order from address 0: no stray byte and
no truncated last instruction (R236 a, b). -/
def Config.imageWhole (c : Config) : Bool := (decodeAll c.opcodeOf c.progLen c.prog).isSome

/-- The parameters are as R7 asks. -/
def Config.wf (c : Config) : Bool := c.opcodeOf.wf

end Sys2Proof
end

