-- ==== Sys2Proof/Machine/Assembler.lean ====
section
/-! DEFINITION. The reference assembler of 30_encoding.md section 5 (R78 to R84). It is not part of the engine (R5): it
fixes the text form of programs and shares `OPCODE_OF` with the decoder (R73). Text is a list of characters. -/

namespace Sys2Proof.Machine

/-- A token: a non-empty run of characters without whitespace. -/
abbrev Token := List Char

/-- The assembler's diagnostics (R79). They never reach the engine's log (R206). -/
inductive AsmDiag where
  | unknownInstruction (mnemonic : Token)
  | operandCountMismatch (mnemonic : Mnemonic) (expected got : Nat)
  | invalidOperand (mnemonic : Mnemonic) (token : Token)
deriving DecidableEq, Repr

/-- The name of a mnemonic in source text; case counts (R78). -/
def mnemonicName : Mnemonic → Token
  | .nop => ['N', 'O', 'P'] | .load => ['L', 'O', 'A', 'D'] | .add => ['A', 'D', 'D'] | .sub => ['S', 'U', 'B']
  | .store => ['S', 'T', 'O', 'R', 'E'] | .and => ['A', 'N', 'D'] | .or => ['O', 'R'] | .xor => ['X', 'O', 'R']
  | .read => ['R', 'E', 'A', 'D'] | .write => ['W', 'R', 'I', 'T', 'E'] | .jmp => ['J', 'M', 'P']
  | .call => ['C', 'A', 'L', 'L'] | .ret => ['R', 'E', 'T'] | .beq => ['B', 'E', 'Q'] | .bne => ['B', 'N', 'E']
  | .int => ['I', 'N', 'T']

/-- The mnemonic a token names, if it names one. -/
def mnemonicNamed? (t : Token) : Option Mnemonic := Mnemonic.all.find? fun m => mnemonicName m == t

/-- Put a finished run of characters before the tokens found after it; an empty run is no token. -/
def flushToken (p : Token × List Token) : List Token := if p.1 = [] then p.2 else p.1 :: p.2

/-- Read one character before a text already read from its end: whitespace closes the run in hand, any other character
joins it. -/
def tokenStep (c : Char) (p : Token × List Token) : Token × List Token :=
  if c.isWhitespace then ([], flushToken p) else (c :: p.1, p.2)

/-- The whitespace-delimited tokens of a text (R78). -/
def tokens (cs : List Char) : List Token := flushToken (cs.foldr tokenStep ([], []))

/-- A line without its comment: everything from the first `#` onward is removed (R79 step 1). -/
def stripComment (line : List Char) : List Char := line.takeWhile fun c => c != '#'

/-- The value of a string of decimal digits. -/
def decimalValue (t : Token) : Nat := t.foldl (fun acc c => 10 * acc + (c.toNat - 48)) 0

/-- An operand token: a non-empty string of decimal digits with value at most 255 (R80). -/
def parseOperand? (t : Token) : Option Byte :=
  if t ≠ [] ∧ t.all Char.isDigit = true ∧ decimalValue t ≤ 255 then some (BitVec.ofNat 8 (decimalValue t)) else none

/-- The operand tokens of a line, left to right, one byte each; the first bad one is recorded and stops the line, and the
bytes before it stay (R79 step 7). -/
def assembleOperands (m : Mnemonic) : List Token → List Byte × List AsmDiag
  | [] => ([], [])
  | t :: ts =>
    match parseOperand? t with
    | none => ([], [.invalidOperand m t])
    | some b => (b :: (assembleOperands m ts).1, (assembleOperands m ts).2)

/-- One line to bytes and diagnostics (R79). The opcode byte stays emitted when the operands are wrong (R84, D16). -/
def assembleLine (om : OpcodeMap) (line : List Char) : List Byte × List AsmDiag :=
  match tokens (stripComment line) with
  | [] => ([], [])
  | t :: ops =>
    match mnemonicNamed? t with
    | none => ([], [.unknownInstruction t])
    | some m =>
      if ops.length = m.arity then (om.of m :: (assembleOperands m ops).1, (assembleOperands m ops).2)
      else ([om.of m], [.operandCountMismatch m m.arity ops.length])

/-- A source text, line by line: the bytes of the lines in order, with their diagnostics; no line stops the pass (R79). -/
def assemble (om : OpcodeMap) (lines : List (List Char)) : List Byte × List AsmDiag :=
  (lines.flatMap fun l => (assembleLine om l).1, lines.flatMap fun l => (assembleLine om l).2)

/-! ### Writing an instruction as source text -/

/-- A decimal digit. -/
def digitChar (n : Nat) : Char := Char.ofNat (48 + n)

/-- A byte in decimal without leading zeros. -/
def decimalText (b : Byte) : Token :=
  if b.toNat < 10 then [digitChar b.toNat]
  else if b.toNat < 100 then [digitChar (b.toNat / 10), digitChar (b.toNat % 10)]
  else [digitChar (b.toNat / 100), digitChar (b.toNat / 10 % 10), digitChar (b.toNat % 10)]

/-- The source line of an instruction: `MNEMONIC op1 op2` (R78). -/
def instrText (i : Instr) : List Char :=
  mnemonicName i.mnemonic ++ i.operands.flatMap fun b => ' ' :: decimalText b

end Sys2Proof.Machine
end

