-- ==== Sys2Proof/Machine/Sequencer.lean ====
section
/-! DEFINITION. The step as the spec's pseudocode writes it, byte by byte (R101 to R109). The machine's `step` decodes a
whole fetch window at once; that the two agree is stated as an obligation. -/

namespace Sys2Proof.Machine

/-- `Prog(a)`, defined for `a < L` (R9). -/
def State.progByte (s : State) (a : Byte) : Byte := s.cfg.prog.getD a.toNat 0

/-- `pc >= L`: the 8-bit pc as an unsigned integer against the image's length (R101). -/
def State.pastEnd (s : State) : Bool := decide (s.cfg.progLen ≤ s.pc.toNat)

/-- `FetchOperand()` of R104, for the instruction at `origin`: the byte and the state with pc advanced, or the state
after the raise of `TruncatedInstruction`. -/
def State.fetchOperand (s : State) (origin : Byte) : Except State (Byte × State) :=
  if s.pastEnd then .error (s.raise (.truncatedInstruction s.ir origin))
  else .ok (s.progByte s.pc, s.setPc (s.pc + 1))

/-- The operand fetches of R109: op1 if the arity is at least 1, op2 if it is 2; an operand that is not fetched is
given as 0 and never looked at. -/
def State.fetchOperands (s : State) (arity : Nat) (origin : Byte) : Except State (Byte × Byte × State) :=
  if arity = 0 then .ok (0, 0, s)
  else
    match s.fetchOperand origin with
    | .error t => .error t
    | .ok (op1, s1) =>
      if arity = 1 then .ok (op1, 0, s1)
      else
        match s1.fetchOperand origin with
        | .error t => .error t
        | .ok (op2, s2) => .ok (op1, op2, s2)

/-- `step()` of R109, for a state with `run = Running` and no READ waiting. -/
def sequencerStep (s : State) : Result :=
  if s.pastEnd then .next s.haltNormal
  else
    let origin := s.pc
    let s1 := { s with ir := s.progByte origin, pc := origin + 1 }
    match s1.cfg.opcodeOf.mnemonicOf? s1.ir with
    | none => .next (s1.raise (.unknownOpcode s1.ir origin))
    | some m =>
      match s1.fetchOperands m.arity origin with
      | .error t => .next t
      | .ok (op1, op2, s2) => exec (Instr.ofOperands m op1 op2) s2

end Sys2Proof.Machine
end

