-- ==== Sys2Proof/Machine/Interfaces.lean ====
section
/-! DEFINITION. What the host can do to the machine and see of it (R62, R63): reset (`State.resetWith`, State.lean), the
answer to an input request, the status interface and the state dump. The output, diagnostic and int-ack interfaces show
the records `out`, `diag` and `intAcks` of the state. -/

namespace Sys2Proof.Machine

/-- The host delivers the next byte of the input stream (R62, R63, R151). It may do so at any time between steps, before
or after a READ asks for it (log entry 4). -/
def State.answerInput (s : State) (b : Byte) : State := { s with input := s.input ++ [b] }

/-- The input source of a run, a free input under no law (R151): byte number k of its stream, k counting from 0, or nothing
where the source never delivers that byte. The stream may be endless; nothing after the first missing byte is ever asked
for. It is no part of the state: a claim about runs quantifies over it (log entry 4). -/
abbrev InputSource := Nat → Option Byte

/-- The host's part before a step of a run: when a Running engine has consumed every byte delivered, the source delivers
the next byte of its stream, if it has one (R62, R63, R151, log entry 4). -/
def State.supply (src : InputSource) (s : State) : State :=
  if s.run = .running ∧ s.input.length ≤ s.inPos then
    match src s.input.length with
    | some b => s.answerInput b
    | none => s
  else s

/-- The bytes of a source from byte number k on, at most n of them, up to the first it never delivers. -/
def InputSource.bytes (src : InputSource) : (k n : Nat) → List Byte
  | _, 0 => []
  | k, n + 1 =>
    match src k with
    | some b => b :: InputSource.bytes src (k + 1) n
    | none => []

/-- A READ waits and the source has not delivered its byte: the engine is stuck in this step until the host answers
(R150, R217). -/
def State.blocked (s : State) : Bool := s.pendingRead.isSome && decide (s.input.length ≤ s.inPos)

/-- The code on the status interface: that of the fatal error that caused Halted-Error, which is the last fatal entry of
the log, and 0 otherwise (R203, R218). -/
def State.statusCode (s : State) : Nat :=
  match s.run with
  | .haltedError =>
    match s.diag.reverse.find? fun d => d.kind.fatal with
    | some d => d.kind.code
    | none => 0
  | .running => 0
  | .haltedNormal => 0

/-- The status interface: the run state and the fatal error's code, readable at any time (R218). -/
def State.status (s : State) : RunState × Nat := (s.run, s.statusCode)

/-- What the state dump returns (R34). -/
structure Dump where
  x : Vector Byte 4
  cells : List Host.Cell
deriving DecidableEq, Repr

/-- The state dump: the registers and every non-zero data memory cell in increasing address order (R34). It only looks, so
it is no step and works in every run state. -/
def State.dump (s : State) : Dump where
  x := s.x
  cells := ((List.range 256).map fun a => (a, s.mem.read a)).filter fun c => c.2 != 0

end Sys2Proof.Machine
end

