-- ==== Sys2Proof/Machine/Run.lean ====
section
/-! DEFINITION. Runs of several steps (R107, R110): with an input source that answers the READs, and with nothing delivered
beyond the input the state holds. -/

namespace Sys2Proof.Machine

/-- n steps of a run, the source delivering its stream as the engine consumes it (R110, R151). -/
def runWith (src : InputSource) : Nat → State → Result
  | 0, s => .next s
  | n + 1, s =>
    match step (s.supply src) with
    | .next t => runWith src n t
    | .fault r => .fault r
    | .refused r => .refused r

/-- n steps, the host delivering nothing beyond the input the state already holds. It is the host's own run of the machine
(`Host.Core.run`, Laws/Run.lean). -/
def runFor : Nat → State → Result
  | 0, s => .next s
  | n + 1, s =>
    match step s with
    | .next t => runFor n t
    | .fault r => .fault r
    | .refused r => .refused r

end Sys2Proof.Machine
end

