-- ==== Sys2Proof/Safety.lean ====
section
/-! DEFINITION. What claims speak of: the invariant of the machine, runs and the ways they end (R110), and what the parts
of a state may depend on. -/

namespace Sys2Proof.Machine

/-! ### The invariant -/

/-- The call stack holds no more than its capacity (R31). -/
def State.stackWithinCap (s : State) : Prop := ∀ cap, s.cfg.cstackCap = some cap → s.cstack.length ≤ cap

/-- The log of a run that has not failed holds no fatal entry; the log of a failed run ends with its one fatal entry
(R201, R202, R207). -/
def State.logMatchesRun (s : State) : Prop :=
  match s.run with
  | .haltedError => ∃ earlier last, s.diag = earlier ++ [last] ∧ last.kind.fatal = true ∧ ∀ d ∈ earlier, d.kind.fatal = false
  | .running => ∀ d ∈ s.diag, d.kind.fatal = false
  | .haltedNormal => ∀ d ∈ s.diag, d.kind.fatal = false

/-- A READ that waits is the instruction in `ir`, its two bytes stand just before `pc`, and the run is Running (R106,
R150). -/
def State.pendingMatchesCode (s : State) : Prop :=
  ∀ reg, s.pendingRead = some reg →
    s.run = .running ∧ s.ir = s.cfg.opcodeOf.read ∧ s.codeBytes 2 (s.pc - 2) = [s.cfg.opcodeOf.read, reg]

/-- The invariant: memory is canonical over addresses 0..255, the stack respects its capacity, no more input was consumed
than delivered, the log matches the run state, and a waiting READ matches the code. -/
structure State.Inv (s : State) : Prop where
  mem : s.mem.wf = true
  stack : s.stackWithinCap
  input : s.inPos ≤ s.input.length
  log : s.logMatchesRun
  pending : s.pendingMatchesCode

/-! ### Runs (R110) -/

/-- With this input source the state after n steps is t. -/
def State.Reaches (src : InputSource) (s : State) (n : Nat) (t : State) : Prop := runWith src n s = .next t

/-- A READ waits for a byte that the source never delivers (R150, R110 d). -/
def State.Starved (src : InputSource) (s : State) : Prop :=
  s.run = .running ∧ s.blocked = true ∧ src s.input.length = none

/-- The run from s ends in Halted-Normal (R110 a). -/
def State.EndsNormally (src : InputSource) (s : State) : Prop := ∃ n t, s.Reaches src n t ∧ t.run = .haltedNormal

/-- The run from s ends in Halted-Error (R110 b). -/
def State.EndsInError (src : InputSource) (s : State) : Prop := ∃ n t, s.Reaches src n t ∧ t.run = .haltedError

/-- The run from s goes on forever, Running and never stuck (R110 c). -/
def State.RunsForever (src : InputSource) (s : State) : Prop :=
  ∀ n, ∃ t, s.Reaches src n t ∧ t.run = .running ∧ ¬t.Starved src

/-- The run from s gets stuck in a READ whose byte never comes (R110 d). -/
def State.StuckInRead (src : InputSource) (s : State) : Prop := ∃ n t, s.Reaches src n t ∧ t.Starved src

/-- A run without any report. -/
def State.Clean (s : State) : Prop := s.diag = []

/-! ### Parts of a state -/

/-- The state with its data memory put aside, to say what does not depend on it (R51). -/
def State.withoutMem (s : State) : State := { s with mem := [] }

/-- The state with its call stack put aside, to say what does not depend on it (R33, R161). -/
def State.withoutStack (s : State) : State := { s with cstack := [] }

/-- The state with the delivered input put aside, to say what does not depend on when it was delivered (R111, R151). -/
def State.withoutInput (s : State) : State := { s with input := [] }

/-- The state with a value in register k. -/
def State.withReg (s : State) (k : Fin 4) (v : Byte) : State := { s with x := s.x.set k v }

/-- The same answer with every next state changed by g. -/
def mapNext (g : State → State) : Result → Result
  | .next s => .next (g s)
  | .fault r => .fault r
  | .refused r => .refused r

/-- The register an instruction writes, by its index operand: LOAD, ADD, SUB, AND, OR, XOR and READ, and no other
(R21). -/
def writtenReg? : Instr → Option Byte
  | .load reg _ => some reg | .add reg _ => some reg | .sub reg _ => some reg
  | .and reg _ => some reg | .or reg _ => some reg | .xor reg _ => some reg | .read reg => some reg
  | .nop => none | .store _ _ => none | .write _ => none | .jmp _ => none | .call _ => none | .ret => none
  | .beq _ => none | .bne _ => none | .int => none

/-- Whether an instruction reads register k: ADD, SUB, AND, OR, XOR, WRITE and STORE their named register, BEQ and BNE
`x[0]` and `x[1]` (R21). -/
def readsReg (k : Fin 4) : Instr → Bool
  | .add reg _ => reg.toNat == k.val | .sub reg _ => reg.toNat == k.val | .and reg _ => reg.toNat == k.val
  | .or reg _ => reg.toNat == k.val | .xor reg _ => reg.toNat == k.val | .write reg => reg.toNat == k.val
  | .store reg _ => reg.toNat == k.val
  | .beq _ => decide (k.val ≤ 1) | .bne _ => decide (k.val ≤ 1)
  | .nop => false | .load _ _ => false | .read _ => false | .jmp _ => false | .call _ => false | .ret => false
  | .int => false

end Sys2Proof.Machine
end

