-- ==== Sys2Proof/Certificates/Slice0/Obligations.lean ====
section
/-! DEFINITION. The statements for the provers, each from the numbered rules of the spec that its docstring and
OBLIGATIONS.json name. `A` is the address of an instruction's opcode byte (R70, R102). The opcode byte in an encoding
clause is the rule's, the default of `OPCODE_OF` (R73, decision D1, log entry 2). -/

open Sys2Proof Sys2Proof.Machine

/-! ### Encoding -/

/-- Decoding an encoded instruction gives it back with every operand at every value, and leaves the bytes after it
(R70, R71, R76, R83), for every injective `OPCODE_OF`. -/
def Obligations.DecodeEncodeRoundTrip : Prop :=
  ∀ om : OpcodeMap, om.wf = true → ∀ (i : Instr) (rest : List Byte), decode om (encode om i ++ rest) = .ok (i, rest)

/-- What decodes re-encodes to the bytes it was read from: no byte of the stream is dropped or read twice (R70, R76). -/
def Obligations.DecodedBytesReencode : Prop :=
  ∀ (om : OpcodeMap) (bs : List Byte) (i : Instr) (rest : List Byte),
    decode om bs = .ok (i, rest) → encode om i ++ rest = bs

/-- A byte stream is rejected in exactly two ways: by `unknownOpcode` when the first byte is no mnemonic's opcode (R74),
by `truncated` when an operand of its mnemonic is missing (R104); it is rejected at all only in these two cases. -/
def Obligations.DecodeRejectsByName : Prop :=
  ∀ om : OpcodeMap, om.wf = true → ∀ (b : Byte) (bs : List Byte),
    (decode om (b :: bs) = .error (.unknownOpcode b) ↔ ∀ m, om.of m ≠ b) ∧
    (decode om (b :: bs) = .error (.truncated b) ↔ ∃ m, om.of m = b ∧ bs.length < m.arity) ∧
    ((∃ e, decode om (b :: bs) = .error e) ↔ (∀ m, om.of m ≠ b) ∨ ∃ m, om.of m = b ∧ bs.length < m.arity)

/-- The default opcode values and the arities (R72, R73), and the 16 valid bytes among 256 (R74).
The values are the spec's decision D1 (log entry 2). -/
def Obligations.DefaultOpcodeTable : Prop :=
  (Mnemonic.all.map fun m => (m, OpcodeMap.default.of m, m.arity)) =
    [(.nop, 0x00, 0), (.load, 0x01, 2), (.add, 0x02, 2), (.sub, 0x03, 2), (.store, 0x04, 2), (.and, 0x05, 2),
     (.or, 0x06, 2), (.xor, 0x07, 2), (.read, 0x08, 1), (.write, 0x09, 1), (.jmp, 0x0A, 1), (.call, 0x0B, 1),
     (.ret, 0x0C, 0), (.beq, 0x0D, 1), (.bne, 0x0E, 1), (.int, 0x0F, 0)] ∧
  OpcodeMap.default.wf = true ∧
  ∀ b : Byte, (OpcodeMap.default.mnemonicOf? b).isSome = true ↔ b.toNat < 16

/-- One word of each family, written out from the spec's worked examples, decodes to its instruction under the default
opcode values, which are the spec's decision D1 (R71, R73, log entry 2). -/
def Obligations.FamilyWordsDecode : Prop :=
  decode OpcodeMap.default [0x00] = .ok (.nop, []) ∧
  decode OpcodeMap.default [0x01, 0x02, 0xC8] = .ok (.load 2 200, []) ∧
  decode OpcodeMap.default [0x04, 0x01, 0x10] = .ok (.store 1 16, []) ∧
  decode OpcodeMap.default [0x03, 0x01, 0xC8] = .ok (.sub 1 200, []) ∧
  decode OpcodeMap.default [0x08, 0x02] = .ok (.read 2, []) ∧
  decode OpcodeMap.default [0x09, 0x00] = .ok (.write 0, []) ∧
  decode OpcodeMap.default [0x0B, 0x05] = .ok (.call 5, []) ∧
  decode OpcodeMap.default [0x0C] = .ok (.ret, []) ∧
  decode OpcodeMap.default [0x0E, 0x06] = .ok (.bne 6, []) ∧
  decode OpcodeMap.default [0x0F] = .ok (.int, [])

/-- The bytes the engine can fetch from an address on: byte k stands at `(A + k) mod 256`, and the first address at or
beyond L ends them (R54, R70, R101, R104). -/
def Obligations.FetchWindowBytes : Prop :=
  ∀ (s : State) (n : Nat) (A : Byte) (k : Nat),
    ((k < n ∧ ∀ j ≤ k, (A + BitVec.ofNat 8 j).toNat < s.cfg.progLen) →
      (s.codeBytes n A)[k]? = s.cfg.prog[(A + BitVec.ofNat 8 k).toNat]?) ∧
    (¬(k < n ∧ ∀ j ≤ k, (A + BitVec.ofNat 8 j).toNat < s.cfg.progLen) → (s.codeBytes n A)[k]? = none)

/-- An instruction placed where the next step fetches, numbered as the opcode table numbers it, is the one the next step
runs (log entry 11). -/
def Obligations.PlacedWordRuns : Prop :=
  ∀ (s : State) (nbits w : Nat) (i : Instr), decodeTableWord nbits w = some i →
    step (s.withFetchWord nbits w) =
      exec i { s.withFetchWord nbits w with
        ir := OpcodeMap.default.of i.mnemonic
        pc := s.pc + BitVec.ofNat 8 i.length }

/-! ### The sequencer -/

/-- A step on a Running engine runs the instruction that the bytes at pc decode to, with its opcode in `ir` and pc past
its last byte modulo 256 (R102, R103, R104, R106). -/
def Obligations.StepRunsDecodedInstruction : Prop :=
  ∀ (s : State) (i : Instr) (rest : List Byte), s.run = .running → s.pendingRead = none →
    decode s.cfg.opcodeOf (s.codeBytes maxLength s.pc) = .ok (i, rest) →
    step s = exec i { s with ir := s.cfg.opcodeOf.of i.mnemonic, pc := s.pc + BitVec.ofNat 8 i.length }

/-- The halt check: at `pc >= L` the run ends normally and nothing else changes, and that is the only way a step ends a run
normally (R101). -/
def Obligations.HaltCheckAtImageEnd : Prop :=
  ∀ s : State, s.run = .running → s.pendingRead = none →
    (s.cfg.progLen ≤ s.pc.toNat → step s = .next { s with run := .haltedNormal }) ∧
    (∀ t, step s = .next t → t.run = .haltedNormal → s.cfg.progLen ≤ s.pc.toNat)

/-- An unknown opcode is fatal with only the opcode fetched; a valid opcode selects its mnemonic (R103). -/
def Obligations.UnknownOpcodeHalts : Prop :=
  ∀ (s : State) (b : Byte), s.run = .running → s.pendingRead = none → s.cfg.prog[s.pc.toNat]? = some b →
    ((∀ m, s.cfg.opcodeOf.of m ≠ b) →
      step s = .next { s with
        ir := b, pc := s.pc + 1, diag := s.diag ++ [.unknownOpcode b s.pc], run := .haltedError }) ∧
    (s.cfg.opcodeOf.wf = true → ∀ m, s.cfg.opcodeOf.of m = b → s.cfg.opcodeOf.mnemonicOf? b = some m)

/-- A missing operand byte, number k counted from 0, is fatal: no execute phase, the earlier fetches stay made, `pc` is L,
and L is at most 255 (R104, R105). -/
def Obligations.TruncatedInstructionHalts : Prop :=
  ∀ (s : State) (b : Byte) (m : Mnemonic) (k : Nat), s.run = .running → s.pendingRead = none →
    s.cfg.prog[s.pc.toNat]? = some b → s.cfg.opcodeOf.mnemonicOf? b = some m → k < m.arity →
    (∀ j < k, (s.pc + 1 + BitVec.ofNat 8 j).toNat < s.cfg.progLen) →
    s.cfg.progLen ≤ (s.pc + 1 + BitVec.ofNat 8 k).toNat →
    step s = .next { s with
      ir := b
      pc := s.pc + 1 + BitVec.ofNat 8 k
      diag := s.diag ++ [.truncatedInstruction b s.pc]
      run := .haltedError } ∧
    (s.pc + 1 + BitVec.ofNat 8 k).toNat = s.cfg.progLen ∧ s.cfg.progLen ≤ 255

/-- The machine's step, which decodes a fetch window, is the spec's pseudocode, which fetches byte by byte (R109). -/
def Obligations.StepRefinesSequencerPseudocode : Prop :=
  ∀ s : State, s.run = .running → s.pendingRead = none → step s = sequencerStep s

/-- Both halted states are absorbing: nothing changes in them (R28, R100). That `step` answers the same state, where the
spec says that no step is enabled, is the model's choice (log entry 3). -/
def Obligations.HaltedStatesAbsorb : Prop :=
  ∀ s : State, s.run ≠ .running → step s = .next s

/-- No instruction and no step of any state stops the model: every error of R203 is a next state (R201, R202, log entry 7).
That a halted state answers itself (log entry 3) and that a READ with no byte answers a state in which it waits (log entry
5), where R100 and R150 give no completing step, are the model's choices. -/
def Obligations.EveryStepAnswersNext : Prop :=
  (∀ (i : Instr) (s : State), ∃ t, exec i s = .next t) ∧ ∀ s : State, ∃ t, step s = .next t

/-! ### NOP, LOAD, STORE -/

/-- NOP changes nothing beyond the fetch (R120). -/
def Obligations.NopChangesNothing : Prop :=
  ∀ s : State, encode OpcodeMap.default .nop = [0x00] ∧ exec .nop s = .next s

/-- LOAD puts the immediate in the register it names; from an index of 4 up it reports `InvalidIndex` and changes no
register (R121). -/
def Obligations.LoadWritesImmediate : Prop :=
  ∀ (s : State) (reg val A : Byte), s.pc = A + 3 →
    encode OpcodeMap.default (.load reg val) = [0x01, reg, val] ∧
    (∀ h : reg.toNat < 4, exec (.load reg val) s = .next { s with x := s.x.set reg.toNat val }) ∧
    (4 ≤ reg.toNat → exec (.load reg val) s = .next { s with diag := s.diag ++ [.invalidIndex reg A] })

/-- STORE writes the register, or the substituted 0 for an index of 4 up, to the addressed data cell and to no other
(R122). -/
def Obligations.StoreWritesCell : Prop :=
  ∀ (s : State) (reg addr A : Byte), s.mem.wf = true → s.pc = A + 3 →
    encode OpcodeMap.default (.store reg addr) = [0x04, reg, addr] ∧
    (∀ h : reg.toNat < 4, ∃ t, exec (.store reg addr) s = .next t ∧ t = { s with mem := t.mem } ∧
      t.mem.read addr.toNat = s.x[reg.toNat] ∧ ∀ a, a ≠ addr.toNat → t.mem.read a = s.mem.read a) ∧
    (4 ≤ reg.toNat → ∃ t, exec (.store reg addr) s = .next t ∧
      t = { s with mem := t.mem, diag := s.diag ++ [.invalidIndex reg A] } ∧
      t.mem.read addr.toNat = 0 ∧ ∀ a, a ≠ addr.toNat → t.mem.read a = s.mem.read a)

/-! ### The byte ALU -/

/-- ADD replaces the register by its sum with the immediate modulo 256; an index of 4 up is only reported (R132,
R131; that the read and the write of one register make one report is the spec's decision D5, log entry 12). -/
def Obligations.AddModulo256 : Prop :=
  ∀ (s : State) (reg val A : Byte), s.pc = A + 3 →
    encode OpcodeMap.default (.add reg val) = [0x02, reg, val] ∧
    (∀ h : reg.toNat < 4, exec (.add reg val) s =
      .next { s with x := s.x.set reg.toNat (BitVec.ofNat 8 ((s.x[reg.toNat].toNat + val.toNat) % 256)) }) ∧
    (4 ≤ reg.toNat → exec (.add reg val) s = .next { s with diag := s.diag ++ [.invalidIndex reg A] })

/-- SUB replaces the register, the minuend, by its difference with the immediate modulo 256; an index of 4 up is only
reported (R133, R131; one report is decision D5, log entry 12). -/
def Obligations.SubModulo256 : Prop :=
  ∀ (s : State) (reg val A : Byte), s.pc = A + 3 →
    encode OpcodeMap.default (.sub reg val) = [0x03, reg, val] ∧
    (∀ h : reg.toNat < 4, exec (.sub reg val) s =
      .next { s with
        x := s.x.set reg.toNat (BitVec.ofInt 8 (((s.x[reg.toNat].toNat : Int) - (val.toNat : Int)) % 256)) }) ∧
    (4 ≤ reg.toNat → exec (.sub reg val) s = .next { s with diag := s.diag ++ [.invalidIndex reg A] })

/-- AND replaces every bit of the register by its conjunction with the immediate's bit; an index of 4 up is only reported
(R134, R131; one report is decision D5, log entry 12; the immediate operand is the resolution of C1, log entry 22). -/
def Obligations.AndBitwise : Prop :=
  ∀ (s : State) (reg val A : Byte), s.pc = A + 3 →
    encode OpcodeMap.default (.and reg val) = [0x05, reg, val] ∧
    (∀ h : reg.toNat < 4, ∃ v : Byte, exec (.and reg val) s = .next { s with x := s.x.set reg.toNat v } ∧
      ∀ k < 8, v.getLsbD k = (s.x[reg.toNat].getLsbD k && val.getLsbD k)) ∧
    (4 ≤ reg.toNat → exec (.and reg val) s = .next { s with diag := s.diag ++ [.invalidIndex reg A] })

/-- OR replaces every bit of the register by its disjunction with the immediate's bit; an index of 4 up is only reported
(R135, R131; one report is decision D5, log entry 12). -/
def Obligations.OrBitwise : Prop :=
  ∀ (s : State) (reg val A : Byte), s.pc = A + 3 →
    encode OpcodeMap.default (.or reg val) = [0x06, reg, val] ∧
    (∀ h : reg.toNat < 4, ∃ v : Byte, exec (.or reg val) s = .next { s with x := s.x.set reg.toNat v } ∧
      ∀ k < 8, v.getLsbD k = (s.x[reg.toNat].getLsbD k || val.getLsbD k)) ∧
    (4 ≤ reg.toNat → exec (.or reg val) s = .next { s with diag := s.diag ++ [.invalidIndex reg A] })

/-- XOR replaces every bit of the register by its exclusive disjunction with the immediate's bit; an index of 4 up is only
reported (R136, R131; one report is decision D5, log entry 12). -/
def Obligations.XorBitwise : Prop :=
  ∀ (s : State) (reg val A : Byte), s.pc = A + 3 →
    encode OpcodeMap.default (.xor reg val) = [0x07, reg, val] ∧
    (∀ h : reg.toNat < 4, ∃ v : Byte, exec (.xor reg val) s = .next { s with x := s.x.set reg.toNat v } ∧
      ∀ k < 8, v.getLsbD k = Bool.xor (s.x[reg.toNat].getLsbD k) (val.getLsbD k)) ∧
    (4 ≤ reg.toNat → exec (.xor reg val) s = .next { s with diag := s.diag ++ [.invalidIndex reg A] })

/-! ### The channels -/

/-- READ with its byte delivered consumes exactly that byte and puts it in the register; for an index of 4 up the byte is
discarded and the index reported. With no byte delivered it makes no report and changes nothing beyond its fetches (R150).
That the wait shows as `pendingRead` is the model's form (log entry 5). -/
def Obligations.ReadTakesNextInput : Prop :=
  ∀ (s : State) (reg A : Byte), s.pc = A + 2 →
    encode OpcodeMap.default (.read reg) = [0x08, reg] ∧
    (∀ v, s.input[s.inPos]? = some v →
      (∀ h : reg.toNat < 4, exec (.read reg) s =
        .next { s with x := s.x.set reg.toNat v, inPos := s.inPos + 1, pendingRead := none }) ∧
      (4 ≤ reg.toNat → exec (.read reg) s =
        .next { s with
          inPos := s.inPos + 1, pendingRead := none, diag := s.diag ++ [.invalidIndex reg A] })) ∧
    (s.input.length ≤ s.inPos → exec (.read reg) s = .next { s with pendingRead := some reg })

/-- WRITE appends the register, or the substituted 0 for an index of 4 up, to the output and leaves the register
(R152). -/
def Obligations.WriteEmitsRegister : Prop :=
  ∀ (s : State) (reg A : Byte), s.pc = A + 2 →
    encode OpcodeMap.default (.write reg) = [0x09, reg] ∧
    (∀ h : reg.toNat < 4, exec (.write reg) s = .next { s with out := s.out ++ [s.x[reg.toNat]] }) ∧
    (4 ≤ reg.toNat → exec (.write reg) s =
      .next { s with out := s.out ++ [0], diag := s.diag ++ [.invalidIndex reg A] })

/-! ### Control flow -/

/-- JMP sets pc to its operand and does nothing else; with a target beyond the image the next step is the normal halt; a
JMP to its own address loops forever: its step answers the state it ran in but for `ir`, and so does the step after it
(R160). -/
def Obligations.JmpSetsPc : Prop :=
  ∀ (s : State) (addr : Byte),
    encode OpcodeMap.default (.jmp addr) = [0x0A, addr] ∧
    exec (.jmp addr) s = .next { s with pc := addr } ∧
    (s.run = .running → s.pendingRead = none →
      (s.cfg.progLen ≤ addr.toNat →
        step { s with pc := addr } = .next { s with pc := addr, run := .haltedNormal }) ∧
      (∀ rest, decode s.cfg.opcodeOf (s.codeBytes maxLength s.pc) = .ok (.jmp s.pc, rest) →
        step s = .next { s with ir := s.cfg.opcodeOf.jmp } ∧
        step { s with ir := s.cfg.opcodeOf.jmp } = .next { s with ir := s.cfg.opcodeOf.jmp }))

/-- CALL pushes the address after its operand and jumps; on a full bounded stack it is fatal, with nothing pushed and pc
left after the operand (R162). -/
def Obligations.CallPushesReturnAddress : Prop :=
  ∀ (s : State) (addr A : Byte), s.pc = A + 2 →
    encode OpcodeMap.default (.call addr) = [0x0B, addr] ∧
    ((∀ cap, s.cfg.cstackCap = some cap → s.cstack.length ≠ cap) →
      exec (.call addr) s = .next { s with cstack := (A + 2) :: s.cstack, pc := addr }) ∧
    (∀ cap, s.cfg.cstackCap = some cap → s.cstack.length = cap →
      exec (.call addr) s = .next { s with diag := s.diag ++ [.callStackOverflow A], run := .haltedError })

/-- RET pops the top of the stack into pc; on an empty stack it reports `CallStackUnderflow` and pc stays after RET
(R164). -/
def Obligations.RetPopsReturnAddress : Prop :=
  ∀ (s : State) (A : Byte), s.pc = A + 1 →
    encode OpcodeMap.default .ret = [0x0C] ∧
    (∀ target rest, s.cstack = target :: rest → exec .ret s = .next { s with cstack := rest, pc := target }) ∧
    (s.cstack = [] → exec .ret s = .next { s with diag := s.diag ++ [.callStackUnderflow A] })

/-- BEQ jumps exactly when `x[0]` equals `x[1]`, and falls through otherwise, changing nothing else; a taken BEQ to its own
address loops forever: its step answers the state it ran in but for `ir`, and so does the step after it (R166). -/
def Obligations.BeqBranchesOnEqual : Prop :=
  ∀ (s : State) (addr : Byte),
    encode OpcodeMap.default (.beq addr) = [0x0D, addr] ∧
    (s.x[0] = s.x[1] → exec (.beq addr) s = .next { s with pc := addr }) ∧
    (s.x[0] ≠ s.x[1] → exec (.beq addr) s = .next s) ∧
    (s.x[0] = s.x[1] → s.run = .running → s.pendingRead = none →
      ∀ rest, decode s.cfg.opcodeOf (s.codeBytes maxLength s.pc) = .ok (.beq s.pc, rest) →
        step s = .next { s with ir := s.cfg.opcodeOf.beq } ∧
        step { s with ir := s.cfg.opcodeOf.beq } = .next { s with ir := s.cfg.opcodeOf.beq })

/-- BNE jumps exactly when `x[0]` differs from `x[1]`, and falls through otherwise, changing nothing else; of BEQ and BNE
at one state exactly one is taken (R167). -/
def Obligations.BneBranchesOnDifferent : Prop :=
  ∀ (s : State) (addr : Byte),
    encode OpcodeMap.default (.bne addr) = [0x0E, addr] ∧
    (s.x[0] ≠ s.x[1] → exec (.bne addr) s = .next { s with pc := addr }) ∧
    (s.x[0] = s.x[1] → exec (.bne addr) s = .next s) ∧
    ((exec (.bne addr) s = .next { s with pc := addr } ∧ exec (.beq addr) s = .next s) ∨
      (exec (.beq addr) s = .next { s with pc := addr } ∧ exec (.bne addr) s = .next s))

/-- CALL then RET brings pc back to the byte after CALL's operand, and the whole state back but for `ir`, which holds RET's
opcode `b` (R163). The RET stands at the called address, so pc is `addr + 1` while it executes. -/
def Obligations.RetUndoesCall : Prop :=
  ∀ (s : State) (addr b : Byte), s.cstackFull = false →
    ∃ t, exec (.call addr) s = .next t ∧ t.pc = addr ∧
      exec .ret { t with pc := addr + 1, ir := b } = .next { s with ir := b }

/-! ### INT -/

/-- INT adds one acknowledge event and changes no architectural state (R180). -/
def Obligations.IntOnlyAcknowledges : Prop :=
  ∀ s : State, encode OpcodeMap.default .int = [0x0F] ∧ exec .int s = .next { s with intAcks := s.intAcks + 1 }

/-! ### Frames -/

/-- LOAD, ADD, SUB, AND, OR and XOR: every register but the named one, every data byte, pc, `ir`, the stack, the run state,
the channels, the records and the parameters stay; a report is made only for an index of 4 up (R121, R131). -/
def Obligations.RegisterFormsFrame : Prop :=
  ∀ (reg val : Byte) (i : Instr) (s t : State),
    i ∈ [Instr.load reg val, .add reg val, .sub reg val, .and reg val, .or reg val, .xor reg val] →
    exec i s = .next t →
    (∀ j : Fin 4, j.val ≠ reg.toNat → t.x[j] = s.x[j]) ∧ (∀ a, t.mem.read a = s.mem.read a) ∧
    t.pc = s.pc ∧ t.ir = s.ir ∧ t.cstack = s.cstack ∧ t.run = s.run ∧ t.out = s.out ∧ t.inPos = s.inPos ∧
    t.intAcks = s.intAcks ∧ t.input = s.input ∧ t.pendingRead = s.pendingRead ∧ t.cfg = s.cfg ∧
    (reg.toNat < 4 → t.diag = s.diag)

/-- STORE: every data byte but the one at its address operand, every register, pc, `ir`, the stack, the run state, the
channels, the records and the parameters stay; a report is made only for an index of 4 up (R122). -/
def Obligations.StoreFrame : Prop :=
  ∀ (reg addr : Byte) (s t : State), exec (.store reg addr) s = .next t →
    (∀ a, a ≠ addr.toNat → t.mem.read a = s.mem.read a) ∧
    t.x = s.x ∧ t.pc = s.pc ∧ t.ir = s.ir ∧ t.cstack = s.cstack ∧ t.run = s.run ∧ t.out = s.out ∧
    t.inPos = s.inPos ∧ t.intAcks = s.intAcks ∧ t.input = s.input ∧ t.pendingRead = s.pendingRead ∧
    t.cfg = s.cfg ∧ (reg.toNat < 4 → t.diag = s.diag)

/-- READ and WRITE: every data byte, pc, `ir`, the stack, the run state, the parameters and the delivered input stay; READ
changes no register but its own and emits nothing; WRITE changes no register and consumes nothing (R150, R152). -/
def Obligations.ChannelFormsFrame : Prop :=
  ∀ (reg : Byte) (i : Instr) (s t : State), i ∈ [Instr.read reg, .write reg] → exec i s = .next t →
    (∀ a, t.mem.read a = s.mem.read a) ∧ t.pc = s.pc ∧ t.ir = s.ir ∧ t.cstack = s.cstack ∧ t.run = s.run ∧
    t.intAcks = s.intAcks ∧ t.input = s.input ∧ t.cfg = s.cfg ∧ (reg.toNat < 4 → t.diag = s.diag) ∧
    (i = .read reg → (∀ j : Fin 4, j.val ≠ reg.toNat → t.x[j] = s.x[j]) ∧ t.out = s.out) ∧
    (i = .write reg → t.x = s.x ∧ t.inPos = s.inPos ∧ t.pendingRead = s.pendingRead)

/-- JMP, CALL, RET, BEQ, BNE, NOP and INT: every register, every data byte, `ir`, the channels and the parameters stay;
only CALL and RET touch the stack, only they can make a report, only CALL the run state, and only INT the acknowledge
count (R120, R160 to R168, R180). -/
def Obligations.ControlFormsFrame : Prop :=
  ∀ (addr : Byte) (i : Instr) (s t : State),
    i ∈ [Instr.jmp addr, .call addr, .ret, .beq addr, .bne addr, .nop, .int] → exec i s = .next t →
    t.x = s.x ∧ (∀ a, t.mem.read a = s.mem.read a) ∧ t.ir = s.ir ∧ t.out = s.out ∧ t.inPos = s.inPos ∧
    t.input = s.input ∧ t.pendingRead = s.pendingRead ∧ t.cfg = s.cfg ∧
    (i ≠ .call addr → t.run = s.run) ∧ (i ≠ .int → t.intAcks = s.intAcks) ∧
    (i ≠ .call addr → i ≠ .ret → t.cstack = s.cstack ∧ t.diag = s.diag) ∧ (i = .nop ∨ i = .int → t.pc = s.pc)

/-! ### Whole-machine rules -/

/-- Only LOAD, ADD, SUB, AND, OR, XOR and READ write a register, the one they name; and an instruction's effect depends on
register k only if R21 lists it as a reader of k. LOAD and a READ that has its byte do not read the register they write
(R21). -/
def Obligations.RegisterReadersAndWriters : Prop :=
  (∀ (i : Instr) (s t : State) (j : Fin 4), exec i s = .next t → t.x[j] ≠ s.x[j] →
    ∃ reg, writtenReg? i = some reg ∧ reg.toNat = j.val) ∧
  (∀ (i : Instr) (s : State) (k : Fin 4) (v : Byte), readsReg k i = false →
    (∀ reg, writtenReg? i = some reg → reg.toNat ≠ k.val) →
    exec i (s.withReg k v) = mapNext (fun t => t.withReg k v) (exec i s)) ∧
  (∀ (s : State) (k : Fin 4) (v reg val : Byte), reg.toNat = k.val →
    exec (.load reg val) (s.withReg k v) = exec (.load reg val) s ∧
    (s.inPos < s.input.length → exec (.read reg) (s.withReg k v) = exec (.read reg) s))

/-- Only STORE writes data memory (R29), and no instruction reads it: what data memory holds changes nothing else in any
step (R51). -/
def Obligations.DataMemoryWriteOnly : Prop :=
  (∀ (i : Instr) (s t : State), exec i s = .next t → (∀ reg addr, i ≠ .store reg addr) → t.mem = s.mem) ∧
  ∀ (s : State) (m : Memory),
    mapNext State.withoutMem (step { s with mem := m }) = mapNext State.withoutMem (step s)

/-- With an unbounded stack no instruction other than RET reads the call stack: what it holds changes nothing but the stack
itself (R30, R33, R161). -/
def Obligations.OnlyRetReadsStack : Prop :=
  ∀ (i : Instr) (s : State) (stack : List Byte), i ≠ .ret → s.cfg.cstackCap = none →
    mapNext State.withoutStack (exec i { s with cstack := stack }) = mapNext State.withoutStack (exec i s)

/-- No step changes the program image (R52), the other parameters (R7) or the delivered input (R151). That these stand in the
state, as `cfg` and `input`, is the model's form (log entries 1 and 4). -/
def Obligations.CodeSpaceReadOnly : Prop :=
  ∀ s t : State, step s = .next t → t.cfg = s.cfg ∧ t.input = s.input

/-- With an image of 256 bytes or more a Running engine never halts normally, and the bytes from 256 on are never fetched:
what stands there changes no step (R53). -/
def Obligations.LongImageNeverHaltsNormally : Prop :=
  ∀ s : State, 256 ≤ s.cfg.progLen →
    (s.run = .running → ∀ src, ¬s.EndsNormally src) ∧
    ∀ tail : List Byte,
      step { s with cfg := { s.cfg with prog := s.cfg.prog.take 256 ++ tail } } =
        mapNext (fun t => { t with cfg := { s.cfg with prog := s.cfg.prog.take 256 ++ tail } }) (step s)

/-- A step makes at most one call-stack operation: one push, one pop or none (R32). -/
def Obligations.OneStackOperationPerStep : Prop :=
  ∀ s t : State, step s = .next t →
    t.cstack = s.cstack ∨ (∃ v, t.cstack = v :: s.cstack) ∨ ∃ v, s.cstack = v :: t.cstack

/-- A step makes at most one diagnostic; a step that halts normally makes none; a step from Running ends in Halted-Error
exactly when its diagnostic is fatal (R201, R202, R207). -/
def Obligations.OneDiagnosticPerStep : Prop :=
  ∀ s t : State, s.run = .running → step s = .next t →
    (t.diag = s.diag ∧ t.run ≠ .haltedError) ∨
    ∃ d, t.diag = s.diag ++ [d] ∧ t.run ≠ .haltedNormal ∧ (d.kind.fatal = true ↔ t.run = .haltedError)

/-- The records only grow, by at most one entry a step (R35). -/
def Obligations.RecordsOnlyGrow : Prop :=
  ∀ s t : State, step s = .next t →
    (t.out = s.out ∨ ∃ v, t.out = s.out ++ [v]) ∧ (t.inPos = s.inPos ∨ t.inPos = s.inPos + 1) ∧
    (t.intAcks = s.intAcks ∨ t.intAcks = s.intAcks + 1) ∧ (t.diag = s.diag ∨ ∃ d, t.diag = s.diag ++ [d])

/-- A fatal error appends its diagnostic, sets Halted-Error and ends the step; beside that the failing step has made its
fetches and nothing else: `ir` holds the opcode, the first byte of the fetch window, and `pc` has advanced over the opcode
alone for `UnknownOpcode` (R103), over the window, which the image's end cut short, for `TruncatedInstruction` (R105), and
over CALL's two bytes for `CallStackOverflow` (R162) (R201, R208). -/
def Obligations.FatalErrorIsPrecise : Prop :=
  ∀ s t : State, s.run = .running → step s = .next t → t.run = .haltedError →
    ∃ (opcode : Byte) (d : Diag) (n : Nat), (s.codeBytes maxLength s.pc).head? = some opcode ∧
      t = { s with
        ir := opcode, pc := s.pc + BitVec.ofNat 8 n, diag := s.diag ++ [d], run := .haltedError } ∧
      ((d = .unknownOpcode opcode s.pc ∧ n = 1) ∨
        (d = .truncatedInstruction opcode s.pc ∧ n = (s.codeBytes maxLength s.pc).length ∧ n < maxLength) ∨
        (d = .callStackOverflow s.pc ∧ n = 2))

/-- Only the opcode fetch writes `ir`, and it writes the byte at pc: a step leaves `ir` or loads it with that byte, and the
byte is the opcode that was decoded; no instruction writes or reads `ir` (R25). -/
def Obligations.IrHoldsFetchedOpcode : Prop :=
  (∀ s t : State, step s = .next t → t.ir = s.ir ∨ s.cfg.prog[s.pc.toNat]? = some t.ir) ∧
  (∀ s t : State, s.run = .running → s.pendingRead = none → step s = .next t → t.run ≠ .haltedNormal →
    s.cfg.prog[s.pc.toNat]? = some t.ir) ∧
  (∀ (i : Instr) (s t : State), exec i s = .next t → t.ir = s.ir) ∧
  ∀ (i : Instr) (s : State) (b : Byte), exec i { s with ir := b } = mapNext (fun t => { t with ir := b }) (exec i s)

/-- Beyond the fetch, pc changes only by an absolute set: JMP, CALL, RET on a non-empty stack, and a taken BEQ or BNE
(R23). -/
def Obligations.PcSetOnlyByControlFlow : Prop :=
  ∀ (i : Instr) (s t : State), exec i s = .next t → t.pc ≠ s.pc →
    i = .jmp t.pc ∨ i = .call t.pc ∨ (i = .ret ∧ ∃ rest, s.cstack = t.pc :: rest) ∨
    (i = .beq t.pc ∧ s.x[0] = s.x[1]) ∨ (i = .bne t.pc ∧ s.x[0] ≠ s.x[1])

/-! ### READ's wait and the host -/

/-- READ is the only suspension point: a step that leaves a READ waiting has made that READ's two fetches and nothing else
(R150). The field `pendingRead` is the model's (log entry 5). -/
def Obligations.OnlyReadSuspends : Prop :=
  ∀ (s t : State) (reg : Byte), s.run = .running → s.pendingRead = none → step s = .next t →
    t.pendingRead = some reg →
    t = { s with ir := s.cfg.opcodeOf.read, pc := s.pc + 2, pendingRead := some reg } ∧ t.blocked = true

/-- A READ that waits changes nothing until the host answers; the answer ends the wait and the READ takes that byte, with
all other state unchanged (R150, R217). The form of the wait is the model's (log entry 5). -/
def Obligations.AnswerEndsReadWait : Prop :=
  ∀ (s : State) (reg b : Byte), s.run = .running → s.pendingRead = some reg → s.input.length = s.inPos →
    step s = .next s ∧
    (∀ h : reg.toNat < 4, step (s.answerInput b) =
      .next { s with
        x := s.x.set reg.toNat b, input := s.input ++ [b], inPos := s.inPos + 1, pendingRead := none }) ∧
    (4 ≤ reg.toNat → step (s.answerInput b) =
      .next { s with
        input := s.input ++ [b], inPos := s.inPos + 1, pendingRead := none
        diag := s.diag ++ [.invalidIndex reg (s.pc - 2)] })

/-- A byte delivered after a step that does not block on input could as well have been delivered before it: when the host
answers decides nothing, only the order of the bytes does (R111, R151). -/
def Obligations.InputDeliveryTimeIrrelevant : Prop :=
  ∀ (s t : State) (b : Byte), step s = .next t → t.blocked = false →
    step (s.answerInput b) = .next (t.answerInput b)

/-- In a run from reset READ number `inPos + 1` takes byte `inPos` of the source's stream, counting bytes from 0, so the k-th
READ takes the k-th byte, whatever the source: a step consumes no byte, or it completes the READ whose operand stands before
pc, into the register that operand names. It waits only where the source has no such byte (R150, R151). The form of the
delivery and of the wait is the model's (log entries 4 and 5). -/
def Obligations.KthReadTakesKthByte : Prop :=
  ∀ (cfg : Config) (src : InputSource) (n : Nat) (t u : State),
    (State.resetWith cfg []).Reaches src n t → step (t.supply src) = .next u →
    (u.inPos = t.inPos ∨
      u.inPos = t.inPos + 1 ∧ ∃ reg b : Byte, src t.inPos = some b ∧
        u.ir = cfg.opcodeOf.read ∧ cfg.prog[(u.pc - 1).toNat]? = some reg ∧
        (∀ h : reg.toNat < 4, u.x = t.x.set reg.toNat b) ∧ (4 ≤ reg.toNat → u.x = t.x)) ∧
    (u.blocked = true → u.inPos = t.inPos ∧ src t.inPos = none)

/-- n steps of a run with a source are, but for the record of what was delivered, n steps of the machine with the first n
bytes of the source's remaining stream delivered beforehand, all of them if it has fewer: a run of an endless stream is as
far as one looks a run of a finite one, and when the host delivers decides nothing (R111, R151, log entry 4). -/
def Obligations.RunDependsOnStreamOnly : Prop :=
  ∀ (src : InputSource) (n : Nat) (s : State), s.inPos ≤ s.input.length →
    mapNext State.withoutInput (runWith src n s) =
      mapNext State.withoutInput (runFor n { s with input := s.input ++ src.bytes s.input.length n })

/-- For every input source, endless or not, a run from a Running state ends in exactly one of four ways: Halted-Normal,
Halted-Error, never, or stuck in a READ whose byte the source never delivers (R110, R151). The form of the wait is the
model's (log entry 5). -/
def Obligations.RunEndsInExactlyOneWay : Prop :=
  ∀ (src : InputSource) (s : State), s.run = .running →
    (s.EndsNormally src ∧ ¬s.EndsInError src ∧ ¬s.RunsForever src ∧ ¬s.StuckInRead src) ∨
    (¬s.EndsNormally src ∧ s.EndsInError src ∧ ¬s.RunsForever src ∧ ¬s.StuckInRead src) ∨
    (¬s.EndsNormally src ∧ ¬s.EndsInError src ∧ s.RunsForever src ∧ ¬s.StuckInRead src) ∨
    (¬s.EndsNormally src ∧ ¬s.EndsInError src ∧ ¬s.RunsForever src ∧ s.StuckInRead src)

/-! ### Reset and the invariant -/

/-- Reset sets every piece of state to its value in R36, every data address reads 0, and the host's program and input are
bound (R36, R230). -/
def Obligations.ResetZeroesState : Prop :=
  ∀ (cfg : Config) (input : List Byte), let s := State.resetWith cfg input
    (∀ j : Fin 4, s.x[j] = 0) ∧ s.pc = 0 ∧ s.ir = 0 ∧ (∀ a, s.mem.read a = 0) ∧ s.cstack = [] ∧ s.run = .running ∧
    s.diag = [] ∧ s.out = [] ∧ s.inPos = 0 ∧ s.intAcks = 0 ∧ s.cfg = cfg ∧ s.input = input

/-- The invariant holds after reset with any parameters and input, and the host's answers keep it (R36, R63). -/
def Obligations.InvariantAtReset : Prop :=
  (∀ (cfg : Config) (input : List Byte), (State.resetWith cfg input).Inv) ∧ State.reset.Inv ∧
  ∀ (s : State) (b : Byte), s.Inv → (s.answerInput b).Inv

/-- Every step keeps the invariant: canonical memory over 0..255, the stack within its capacity, no input consumed that was
not delivered, a log that matches the run state, a waiting READ that matches the code (R29, R31, R35, R150, R201). -/
def Obligations.StepKeepsInvariant : Prop :=
  ∀ s t : State, s.Inv → step s = .next t → t.Inv

/-! ### Status, dump and memory -/

/-- The status interface shows a code other than 0 exactly in Halted-Error, and it is the code of the last logged
diagnostic, one of the fatal kinds' codes 1 to 3 (R203, R218). -/
def Obligations.StatusShowsFatalCode : Prop :=
  ∀ s : State, s.Inv →
    s.status.1 = s.run ∧ (s.status.2 ≠ 0 ↔ s.run = .haltedError) ∧
    (s.run = .haltedError → ∃ earlier d, s.diag = earlier ++ [d] ∧ s.status.2 = d.kind.code ∧ s.status.2 ≤ 3)

/-- The dump shows the registers and exactly the non-zero data cells in increasing address order; on canonical memory that
is the memory itself (R34). -/
def Obligations.DumpListsNonZeroCells : Prop :=
  ∀ s : State,
    s.dump.x = s.x ∧
    (∀ (a : Nat) (v : Byte), (a, v) ∈ s.dump.cells ↔ a < 256 ∧ s.mem.read a = v ∧ v ≠ 0) ∧
    s.dump.cells.Pairwise (fun c d => c.1 < d.1) ∧
    (s.mem.wf = true → s.dump.cells = s.mem)

/-- Canonical memories that read alike at every address are the same data (R29; the canonical form is log entry 10). -/
def Obligations.EqualMemoriesAreEqualData : Prop :=
  ∀ m n : Memory, m.wf = true → n.wf = true → (∀ a < 256, m.read a = n.read a) → m = n

/-! ### The reference assembler -/

/-- Assembling instructions written as source text gives their bytes without a diagnostic, and decoding those bytes gives
the instructions back, opcode and operands exact (R83). -/
def Obligations.AssembleThenDecodeRoundTrip : Prop :=
  ∀ (om : OpcodeMap), om.wf = true → ∀ is : List Instr,
    assemble om (is.map instrText) = (encodeAll om is, []) ∧
    decodeAll om (encodeAll om is).length (encodeAll om is) = some is

/-- A source text that assembles without a diagnostic gives whole instructions only: the bytes decode instruction by
instruction to their end (R79, R84). -/
def Obligations.CleanAssemblyDecodesWhole : Prop :=
  ∀ (om : OpcodeMap), om.wf = true → ∀ (lines : List (List Char)) (bs : List Byte), assemble om lines = (bs, []) →
    ∃ is : List Instr, bs = encodeAll om is ∧ decodeAll om bs.length bs = some is
end

