-- ==== Sys2Proof/Laws/Decode.lean ====
section
/-! SUPPORT. The opcode map and its inverse, the parts of an instruction, and what the decoder can answer. -/

namespace Sys2Proof

/-! ### The opcode map -/

theorem Mnemonic.mem_all (m : Mnemonic) : m ∈ Mnemonic.all := by cases m <;> decide

/-- An injective map gives different bytes to different mnemonics. -/
theorem OpcodeMap.of_injective {om : OpcodeMap} (h : om.wf = true) {m n : Mnemonic} (e : om.of m = om.of n) : m = n :=
  List.inj_on_of_nodup_map (of_decide_eq_true h) m.mem_all n.mem_all e

theorem OpcodeMap.of_mnemonicOf? {om : OpcodeMap} {b : Byte} {m : Mnemonic} (h : om.mnemonicOf? b = some m) :
    om.of m = b := by
  simpa using List.find?_some h

theorem OpcodeMap.mnemonicOf?_eq_none {om : OpcodeMap} {b : Byte} : om.mnemonicOf? b = none ↔ ∀ m, om.of m ≠ b := by
  simp [OpcodeMap.mnemonicOf?, Mnemonic.mem_all]

/-- Under an injective map a mnemonic's byte stands for that mnemonic. -/
theorem OpcodeMap.mnemonicOf?_of {om : OpcodeMap} (h : om.wf = true) (m : Mnemonic) :
    om.mnemonicOf? (om.of m) = some m := by
  cases hm : om.mnemonicOf? (om.of m) with
  | none => exact absurd rfl (OpcodeMap.mnemonicOf?_eq_none.mp hm m)
  | some n => rw [OpcodeMap.of_injective h (OpcodeMap.of_mnemonicOf? hm)]

/-! ### The parts of an instruction -/

@[simp] theorem Instr.mnemonic_ofOperands (m : Mnemonic) (a b : Byte) : (Instr.ofOperands m a b).mnemonic = m := by
  cases m <;> rfl

@[simp] theorem Instr.operands_length (i : Instr) : i.operands.length = i.mnemonic.arity := by cases i <;> rfl

@[simp] theorem Instr.length_ofOperands (m : Mnemonic) (a b : Byte) : (Instr.ofOperands m a b).length = m.length := by
  simp [Instr.length]

theorem Mnemonic.arity_le_two (m : Mnemonic) : m.arity ≤ 2 := by cases m <;> decide

/-- An instruction is its mnemonic with its operands. -/
theorem Instr.ofOperands_operands (i : Instr) (rest : List Byte) :
    Instr.ofOperands i.mnemonic ((i.operands ++ rest).getD 0 0) ((i.operands ++ rest).getD 1 0) = i := by
  cases i <;> rfl

/-- The operands of an instruction built from a byte list are the list's first bytes. -/
theorem Instr.operands_ofOperands (m : Mnemonic) (bs : List Byte) (h : m.arity ≤ bs.length) :
    (Instr.ofOperands m (bs.getD 0 0) (bs.getD 1 0)).operands = bs.take m.arity := by
  match bs with
  | [] => cases m <;> first | rfl | simp [Mnemonic.arity] at h
  | [a] => cases m <;> first | rfl | simp [Mnemonic.arity] at h
  | a :: b :: _ => cases m <;> rfl

/-! ### What the decoder answers -/

/-- Decoding succeeds exactly when the first byte is a mnemonic's and its operands are there. -/
theorem decode_eq_ok_iff {om : OpcodeMap} {bs : List Byte} {i : Instr} {rest : List Byte} :
    decode om bs = .ok (i, rest) ↔
      ∃ opcode tail m, bs = opcode :: tail ∧ om.mnemonicOf? opcode = some m ∧ m.arity ≤ tail.length ∧
        i = Instr.ofOperands m (tail.getD 0 0) (tail.getD 1 0) ∧ rest = tail.drop m.arity := by
  cases bs with
  | nil => simp [decode]
  | cons opcode tail =>
    cases hm : om.mnemonicOf? opcode with
    | none => simp [decode, hm]
    | some m =>
      by_cases hlen : tail.length < m.arity
      · simp only [decode, hm, if_pos hlen]
        constructor
        · intro h; cases h
        · rintro ⟨_, _, _, h, hm', hle, _⟩
          cases h
          rw [hm] at hm'
          cases hm'
          omega
      · simp only [decode, hm, if_neg hlen, Except.ok.injEq, Prod.mk.injEq]
        constructor
        · rintro ⟨rfl, rfl⟩
          exact ⟨opcode, tail, m, rfl, hm, by omega, rfl, rfl⟩
        · rintro ⟨_, _, _, h, hm', _, rfl, rfl⟩
          cases h
          rw [hm] at hm'
          cases hm'
          exact ⟨rfl, rfl⟩

/-- Decoding names an unknown opcode exactly when the first byte is no mnemonic's. -/
theorem decode_eq_unknownOpcode_iff {om : OpcodeMap} {bs : List Byte} {b : Byte} :
    decode om bs = .error (.unknownOpcode b) ↔ ∃ tail, bs = b :: tail ∧ om.mnemonicOf? b = none := by
  cases bs with
  | nil => simp [decode]
  | cons opcode tail =>
    cases hm : om.mnemonicOf? opcode with
    | none =>
      simp only [decode, hm, Except.error.injEq, DecodeError.unknownOpcode.injEq, List.cons.injEq]
      constructor
      · rintro rfl; exact ⟨tail, ⟨rfl, rfl⟩, hm⟩
      · rintro ⟨_, ⟨rfl, _⟩, _⟩; rfl
    | some m =>
      simp only [decode, hm]
      constructor
      · intro h; split at h <;> cases h
      · rintro ⟨_, h, hn⟩
        cases h
        rw [hm] at hn
        cases hn

/-- Decoding names a truncated opcode exactly when operands of its mnemonic are missing. -/
theorem decode_eq_truncated_iff {om : OpcodeMap} {bs : List Byte} {b : Byte} :
    decode om bs = .error (.truncated b) ↔
      ∃ tail m, bs = b :: tail ∧ om.mnemonicOf? b = some m ∧ tail.length < m.arity := by
  cases bs with
  | nil => simp [decode]
  | cons opcode tail =>
    cases hm : om.mnemonicOf? opcode with
    | none =>
      simp only [decode, hm]
      constructor
      · intro h; cases h
      · rintro ⟨_, _, h, hn, _⟩
        cases h
        rw [hm] at hn
        cases hn
    | some m =>
      simp only [decode, hm]
      constructor
      · intro h
        split at h
        · cases h; exact ⟨tail, m, rfl, hm, ‹_›⟩
        · cases h
      · rintro ⟨_, _, h, hn, hlt⟩
        cases h
        rw [hm] at hn
        cases hn
        rw [if_pos hlt]

/-- Decoding finds no opcode exactly when there is no byte. -/
theorem decode_eq_noOpcode_iff {om : OpcodeMap} {bs : List Byte} : decode om bs = .error .noOpcode ↔ bs = [] := by
  cases bs with
  | nil => simp [decode]
  | cons opcode tail =>
    cases hm : om.mnemonicOf? opcode with
    | none => simp [decode, hm]
    | some m =>
      simp only [decode, hm, reduceCtorEq, iff_false]
      split <;> simp

end Sys2Proof
end

