-- ==== Sys2Proof/Laws/Memory.lean ====
section
/-! SUPPORT. Data memory: read after write, and every operation keeps the canonical form. -/

namespace Sys2Proof.Machine

/-! ### Putting a pair before a memory -/

theorem Memory.read_cons_same (a : Nat) (v : Byte) (m : Memory) (h : m.read a = Memory.unlisted) :
    (Memory.cons a v m).read a = v := by
  unfold Memory.cons
  split
  · rw [h, ‹v = Memory.unlisted›]
  · simp [Memory.read]

theorem Memory.read_cons_other (a b : Nat) (v : Byte) (m : Memory) (h : b ≠ a) :
    (Memory.cons a v m).read b = m.read b := by
  unfold Memory.cons
  split
  · rfl
  · simp [Memory.read, Ne.symm h]

theorem Memory.wfFrom_cons (lo a : Nat) (v : Byte) (m : Memory) (hlo : lo ≤ a) (ha : a < 256)
    (hm : m.wfFrom (a + 1) = true) (hlow : m.wfFrom lo = true) : (Memory.cons a v m).wfFrom lo = true := by
  unfold Memory.cons
  split
  · exact hlow
  · simp only [Memory.wfFrom, Bool.and_eq_true, decide_eq_true_eq]
    exact ⟨⟨hlo, ha, ‹¬v = Memory.unlisted›⟩, hm⟩

/-! ### The canonical form -/

/-- A memory in form from one address is in form from every lower one. -/
theorem Memory.wfFrom_mono (m : Memory) (lo lo' : Nat) (h : lo ≤ lo') (hm : m.wfFrom lo' = true) :
    m.wfFrom lo = true := by
  cases m with
  | nil => rfl
  | cons c m =>
    obtain ⟨k, v⟩ := c
    simp only [Memory.wfFrom, Bool.and_eq_true, decide_eq_true_eq] at hm ⊢
    exact ⟨⟨by omega, hm.1.2⟩, hm.2⟩

/-- An address below a canonical memory's first reads as unlisted. -/
theorem Memory.read_below (m : Memory) (lo a : Nat) (h : a < lo) (hm : m.wfFrom lo = true) :
    m.read a = Memory.unlisted := by
  induction m generalizing lo with
  | nil => rfl
  | cons c m ih =>
    obtain ⟨k, v⟩ := c
    simp only [Memory.wfFrom, Bool.and_eq_true, decide_eq_true_eq] at hm
    have hk : k ≠ a := by omega
    simp only [Memory.read, hk, if_false]
    exact ih (k + 1) (by omega) hm.2

/-- An address above 255 of a canonical memory reads as unlisted. -/
theorem Memory.read_above (m : Memory) (lo a : Nat) (h : 256 ≤ a) (hm : m.wfFrom lo = true) :
    m.read a = Memory.unlisted := by
  induction m generalizing lo with
  | nil => rfl
  | cons c m ih =>
    obtain ⟨k, v⟩ := c
    simp only [Memory.wfFrom, Bool.and_eq_true, decide_eq_true_eq] at hm
    have hk : k ≠ a := by omega
    simp only [Memory.read, hk, if_false]
    exact ih (k + 1) hm.2

/-- `MemWrite` keeps the canonical form. -/
theorem Memory.write_wfFrom (m : Memory) (lo a : Nat) (v : Byte) (hlo : lo ≤ a) (ha : a < 256)
    (hm : m.wfFrom lo = true) : (m.write a v).wfFrom lo = true := by
  induction m generalizing lo with
  | nil => exact Memory.wfFrom_cons lo a v [] hlo ha rfl rfl
  | cons c m ih =>
    obtain ⟨k, u⟩ := c
    have hparts := hm
    simp only [Memory.wfFrom, Bool.and_eq_true, decide_eq_true_eq] at hparts
    obtain ⟨⟨hk, hk', hu⟩, htail⟩ := hparts
    unfold Memory.write
    split
    · rename_i hlt
      refine Memory.wfFrom_cons lo a v _ hlo ha ?_ hm
      simp only [Memory.wfFrom, Bool.and_eq_true, decide_eq_true_eq]
      exact ⟨⟨hlt, hk', hu⟩, htail⟩
    · split
      · rename_i _ heq
        subst heq
        exact Memory.wfFrom_cons lo a v m hlo ha htail (Memory.wfFrom_mono m lo (a + 1) (by omega) htail)
      · simp only [Memory.wfFrom, Bool.and_eq_true, decide_eq_true_eq]
        exact ⟨⟨hk, hk', hu⟩, ih (k + 1) (by omega) htail⟩

theorem Memory.write_wf (m : Memory) (a : Byte) (v : Byte) (hm : m.wf = true) : (m.write a.toNat v).wf = true :=
  Memory.write_wfFrom m 0 a.toNat v (by omega) a.isLt hm

/-! ### Read after write -/

theorem Memory.read_write_sameFrom (m : Memory) (lo a : Nat) (v : Byte) (hm : m.wfFrom lo = true) :
    (m.write a v).read a = v := by
  induction m generalizing lo with
  | nil => exact Memory.read_cons_same a v [] rfl
  | cons c m ih =>
    obtain ⟨k, u⟩ := c
    have hparts := hm
    simp only [Memory.wfFrom, Bool.and_eq_true, decide_eq_true_eq] at hparts
    obtain ⟨⟨hk, hk', hu⟩, htail⟩ := hparts
    unfold Memory.write
    split
    · refine Memory.read_cons_same a v _ (Memory.read_below _ k a ‹a < k› ?_)
      simp only [Memory.wfFrom, Bool.and_eq_true, decide_eq_true_eq]
      exact ⟨⟨le_refl k, hk', hu⟩, htail⟩
    · split
      · rename_i _ heq
        subst heq
        exact Memory.read_cons_same a v m (Memory.read_below m (a + 1) a (by omega) htail)
      · rename_i _ hne
        simp only [Memory.read, Ne.symm hne, if_false]
        exact ih (k + 1) htail

/-- A read after a write to the same address gives the value written. -/
theorem Memory.read_write_same (m : Memory) (a : Nat) (v : Byte) (hm : m.wf = true) : (m.write a v).read a = v :=
  Memory.read_write_sameFrom m 0 a v hm

/-- A write leaves every other address alone. -/
theorem Memory.read_write_other (m : Memory) (a b : Nat) (v : Byte) (h : b ≠ a) :
    (m.write a v).read b = m.read b := by
  induction m with
  | nil => exact Memory.read_cons_other a b v [] h
  | cons c m ih =>
    obtain ⟨k, u⟩ := c
    unfold Memory.write
    split
    · exact Memory.read_cons_other a b v _ h
    · split
      · rename_i _ heq
        subst heq
        rw [Memory.read_cons_other a b v m h]
        simp [Memory.read, Ne.symm h]
      · simp only [Memory.read]
        split
        · rfl
        · exact ih

/-- Memory after reset is in canonical form. -/
theorem Memory.reset_wf : State.reset.mem.wf = true := rfl

/-- Memory after reset reads 0 everywhere (R36). -/
theorem Memory.read_nil (a : Nat) : Memory.read [] a = Memory.unlisted := rfl

end Sys2Proof.Machine
end

