-- ==== Sys2Proof/Laws/State.lean ====
section
/-! SUPPORT. One lemma for each field of the state under each operation that changes the state, so that no proof has to
unfold a record update. -/

namespace Sys2Proof.Machine

/-! ### `State.memWrite` -/

@[simp] theorem State.memWrite_cfg (s : State) (addr v : Byte) : (s.memWrite addr v).cfg = s.cfg := rfl
@[simp] theorem State.memWrite_x (s : State) (addr v : Byte) : (s.memWrite addr v).x = s.x := rfl
@[simp] theorem State.memWrite_pc (s : State) (addr v : Byte) : (s.memWrite addr v).pc = s.pc := rfl
@[simp] theorem State.memWrite_ir (s : State) (addr v : Byte) : (s.memWrite addr v).ir = s.ir := rfl
@[simp] theorem State.memWrite_mem (s : State) (addr v : Byte) : (s.memWrite addr v).mem = s.mem.write addr.toNat v := rfl
@[simp] theorem State.memWrite_cstack (s : State) (addr v : Byte) : (s.memWrite addr v).cstack = s.cstack := rfl
@[simp] theorem State.memWrite_run (s : State) (addr v : Byte) : (s.memWrite addr v).run = s.run := rfl
@[simp] theorem State.memWrite_diag (s : State) (addr v : Byte) : (s.memWrite addr v).diag = s.diag := rfl
@[simp] theorem State.memWrite_out (s : State) (addr v : Byte) : (s.memWrite addr v).out = s.out := rfl
@[simp] theorem State.memWrite_inPos (s : State) (addr v : Byte) : (s.memWrite addr v).inPos = s.inPos := rfl
@[simp] theorem State.memWrite_intAcks (s : State) (addr v : Byte) : (s.memWrite addr v).intAcks = s.intAcks := rfl
@[simp] theorem State.memWrite_input (s : State) (addr v : Byte) : (s.memWrite addr v).input = s.input := rfl
@[simp] theorem State.memWrite_pendingRead (s : State) (addr v : Byte) : (s.memWrite addr v).pendingRead = s.pendingRead := rfl

/-! ### `State.consume` -/

@[simp] theorem State.consume_cfg (s : State) (bytes : List Byte) : (s.consume bytes).cfg = s.cfg := rfl
@[simp] theorem State.consume_x (s : State) (bytes : List Byte) : (s.consume bytes).x = s.x := rfl
@[simp] theorem State.consume_pc (s : State) (bytes : List Byte) : (s.consume bytes).pc = s.pc + BitVec.ofNat 8 bytes.length := rfl
@[simp] theorem State.consume_ir (s : State) (bytes : List Byte) : (s.consume bytes).ir = bytes.headD s.ir := rfl
@[simp] theorem State.consume_mem (s : State) (bytes : List Byte) : (s.consume bytes).mem = s.mem := rfl
@[simp] theorem State.consume_cstack (s : State) (bytes : List Byte) : (s.consume bytes).cstack = s.cstack := rfl
@[simp] theorem State.consume_run (s : State) (bytes : List Byte) : (s.consume bytes).run = s.run := rfl
@[simp] theorem State.consume_diag (s : State) (bytes : List Byte) : (s.consume bytes).diag = s.diag := rfl
@[simp] theorem State.consume_out (s : State) (bytes : List Byte) : (s.consume bytes).out = s.out := rfl
@[simp] theorem State.consume_inPos (s : State) (bytes : List Byte) : (s.consume bytes).inPos = s.inPos := rfl
@[simp] theorem State.consume_intAcks (s : State) (bytes : List Byte) : (s.consume bytes).intAcks = s.intAcks := rfl
@[simp] theorem State.consume_input (s : State) (bytes : List Byte) : (s.consume bytes).input = s.input := rfl
@[simp] theorem State.consume_pendingRead (s : State) (bytes : List Byte) : (s.consume bytes).pendingRead = s.pendingRead := rfl

/-! ### `State.report` -/

@[simp] theorem State.report_cfg (s : State) (d : Diag) : (s.report d).cfg = s.cfg := rfl
@[simp] theorem State.report_x (s : State) (d : Diag) : (s.report d).x = s.x := rfl
@[simp] theorem State.report_pc (s : State) (d : Diag) : (s.report d).pc = s.pc := rfl
@[simp] theorem State.report_ir (s : State) (d : Diag) : (s.report d).ir = s.ir := rfl
@[simp] theorem State.report_mem (s : State) (d : Diag) : (s.report d).mem = s.mem := rfl
@[simp] theorem State.report_cstack (s : State) (d : Diag) : (s.report d).cstack = s.cstack := rfl
@[simp] theorem State.report_run (s : State) (d : Diag) : (s.report d).run = s.run := rfl
@[simp] theorem State.report_diag (s : State) (d : Diag) : (s.report d).diag = s.diag ++ [d] := rfl
@[simp] theorem State.report_out (s : State) (d : Diag) : (s.report d).out = s.out := rfl
@[simp] theorem State.report_inPos (s : State) (d : Diag) : (s.report d).inPos = s.inPos := rfl
@[simp] theorem State.report_intAcks (s : State) (d : Diag) : (s.report d).intAcks = s.intAcks := rfl
@[simp] theorem State.report_input (s : State) (d : Diag) : (s.report d).input = s.input := rfl
@[simp] theorem State.report_pendingRead (s : State) (d : Diag) : (s.report d).pendingRead = s.pendingRead := rfl

/-! ### `State.raise` -/

@[simp] theorem State.raise_cfg (s : State) (d : Diag) : (s.raise d).cfg = s.cfg := rfl
@[simp] theorem State.raise_x (s : State) (d : Diag) : (s.raise d).x = s.x := rfl
@[simp] theorem State.raise_pc (s : State) (d : Diag) : (s.raise d).pc = s.pc := rfl
@[simp] theorem State.raise_ir (s : State) (d : Diag) : (s.raise d).ir = s.ir := rfl
@[simp] theorem State.raise_mem (s : State) (d : Diag) : (s.raise d).mem = s.mem := rfl
@[simp] theorem State.raise_cstack (s : State) (d : Diag) : (s.raise d).cstack = s.cstack := rfl
@[simp] theorem State.raise_run (s : State) (d : Diag) : (s.raise d).run = .haltedError := rfl
@[simp] theorem State.raise_diag (s : State) (d : Diag) : (s.raise d).diag = s.diag ++ [d] := rfl
@[simp] theorem State.raise_out (s : State) (d : Diag) : (s.raise d).out = s.out := rfl
@[simp] theorem State.raise_inPos (s : State) (d : Diag) : (s.raise d).inPos = s.inPos := rfl
@[simp] theorem State.raise_intAcks (s : State) (d : Diag) : (s.raise d).intAcks = s.intAcks := rfl
@[simp] theorem State.raise_input (s : State) (d : Diag) : (s.raise d).input = s.input := rfl
@[simp] theorem State.raise_pendingRead (s : State) (d : Diag) : (s.raise d).pendingRead = s.pendingRead := rfl

/-! ### `State.haltNormal` -/

@[simp] theorem State.haltNormal_cfg (s : State) : s.haltNormal.cfg = s.cfg := rfl
@[simp] theorem State.haltNormal_x (s : State) : s.haltNormal.x = s.x := rfl
@[simp] theorem State.haltNormal_pc (s : State) : s.haltNormal.pc = s.pc := rfl
@[simp] theorem State.haltNormal_ir (s : State) : s.haltNormal.ir = s.ir := rfl
@[simp] theorem State.haltNormal_mem (s : State) : s.haltNormal.mem = s.mem := rfl
@[simp] theorem State.haltNormal_cstack (s : State) : s.haltNormal.cstack = s.cstack := rfl
@[simp] theorem State.haltNormal_run (s : State) : s.haltNormal.run = .haltedNormal := rfl
@[simp] theorem State.haltNormal_diag (s : State) : s.haltNormal.diag = s.diag := rfl
@[simp] theorem State.haltNormal_out (s : State) : s.haltNormal.out = s.out := rfl
@[simp] theorem State.haltNormal_inPos (s : State) : s.haltNormal.inPos = s.inPos := rfl
@[simp] theorem State.haltNormal_intAcks (s : State) : s.haltNormal.intAcks = s.intAcks := rfl
@[simp] theorem State.haltNormal_input (s : State) : s.haltNormal.input = s.input := rfl
@[simp] theorem State.haltNormal_pendingRead (s : State) : s.haltNormal.pendingRead = s.pendingRead := rfl

/-! ### `State.push` -/

@[simp] theorem State.push_cfg (s : State) (v : Byte) : (s.push v).cfg = s.cfg := rfl
@[simp] theorem State.push_x (s : State) (v : Byte) : (s.push v).x = s.x := rfl
@[simp] theorem State.push_pc (s : State) (v : Byte) : (s.push v).pc = s.pc := rfl
@[simp] theorem State.push_ir (s : State) (v : Byte) : (s.push v).ir = s.ir := rfl
@[simp] theorem State.push_mem (s : State) (v : Byte) : (s.push v).mem = s.mem := rfl
@[simp] theorem State.push_cstack (s : State) (v : Byte) : (s.push v).cstack = v :: s.cstack := rfl
@[simp] theorem State.push_run (s : State) (v : Byte) : (s.push v).run = s.run := rfl
@[simp] theorem State.push_diag (s : State) (v : Byte) : (s.push v).diag = s.diag := rfl
@[simp] theorem State.push_out (s : State) (v : Byte) : (s.push v).out = s.out := rfl
@[simp] theorem State.push_inPos (s : State) (v : Byte) : (s.push v).inPos = s.inPos := rfl
@[simp] theorem State.push_intAcks (s : State) (v : Byte) : (s.push v).intAcks = s.intAcks := rfl
@[simp] theorem State.push_input (s : State) (v : Byte) : (s.push v).input = s.input := rfl
@[simp] theorem State.push_pendingRead (s : State) (v : Byte) : (s.push v).pendingRead = s.pendingRead := rfl

/-! ### `State.setPc` -/

@[simp] theorem State.setPc_cfg (s : State) (target : Byte) : (s.setPc target).cfg = s.cfg := rfl
@[simp] theorem State.setPc_x (s : State) (target : Byte) : (s.setPc target).x = s.x := rfl
@[simp] theorem State.setPc_pc (s : State) (target : Byte) : (s.setPc target).pc = target := rfl
@[simp] theorem State.setPc_ir (s : State) (target : Byte) : (s.setPc target).ir = s.ir := rfl
@[simp] theorem State.setPc_mem (s : State) (target : Byte) : (s.setPc target).mem = s.mem := rfl
@[simp] theorem State.setPc_cstack (s : State) (target : Byte) : (s.setPc target).cstack = s.cstack := rfl
@[simp] theorem State.setPc_run (s : State) (target : Byte) : (s.setPc target).run = s.run := rfl
@[simp] theorem State.setPc_diag (s : State) (target : Byte) : (s.setPc target).diag = s.diag := rfl
@[simp] theorem State.setPc_out (s : State) (target : Byte) : (s.setPc target).out = s.out := rfl
@[simp] theorem State.setPc_inPos (s : State) (target : Byte) : (s.setPc target).inPos = s.inPos := rfl
@[simp] theorem State.setPc_intAcks (s : State) (target : Byte) : (s.setPc target).intAcks = s.intAcks := rfl
@[simp] theorem State.setPc_input (s : State) (target : Byte) : (s.setPc target).input = s.input := rfl
@[simp] theorem State.setPc_pendingRead (s : State) (target : Byte) : (s.setPc target).pendingRead = s.pendingRead := rfl

/-! ### `State.await` -/

@[simp] theorem State.await_cfg (s : State) (reg : Byte) : (s.await reg).cfg = s.cfg := rfl
@[simp] theorem State.await_x (s : State) (reg : Byte) : (s.await reg).x = s.x := rfl
@[simp] theorem State.await_pc (s : State) (reg : Byte) : (s.await reg).pc = s.pc := rfl
@[simp] theorem State.await_ir (s : State) (reg : Byte) : (s.await reg).ir = s.ir := rfl
@[simp] theorem State.await_mem (s : State) (reg : Byte) : (s.await reg).mem = s.mem := rfl
@[simp] theorem State.await_cstack (s : State) (reg : Byte) : (s.await reg).cstack = s.cstack := rfl
@[simp] theorem State.await_run (s : State) (reg : Byte) : (s.await reg).run = s.run := rfl
@[simp] theorem State.await_diag (s : State) (reg : Byte) : (s.await reg).diag = s.diag := rfl
@[simp] theorem State.await_out (s : State) (reg : Byte) : (s.await reg).out = s.out := rfl
@[simp] theorem State.await_inPos (s : State) (reg : Byte) : (s.await reg).inPos = s.inPos := rfl
@[simp] theorem State.await_intAcks (s : State) (reg : Byte) : (s.await reg).intAcks = s.intAcks := rfl
@[simp] theorem State.await_input (s : State) (reg : Byte) : (s.await reg).input = s.input := rfl
@[simp] theorem State.await_pendingRead (s : State) (reg : Byte) : (s.await reg).pendingRead = some reg := rfl

/-! ### `State.outEmit` -/

@[simp] theorem State.outEmit_cfg (s : State) (v : Byte) : (s.outEmit v).cfg = s.cfg := rfl
@[simp] theorem State.outEmit_x (s : State) (v : Byte) : (s.outEmit v).x = s.x := rfl
@[simp] theorem State.outEmit_pc (s : State) (v : Byte) : (s.outEmit v).pc = s.pc := rfl
@[simp] theorem State.outEmit_ir (s : State) (v : Byte) : (s.outEmit v).ir = s.ir := rfl
@[simp] theorem State.outEmit_mem (s : State) (v : Byte) : (s.outEmit v).mem = s.mem := rfl
@[simp] theorem State.outEmit_cstack (s : State) (v : Byte) : (s.outEmit v).cstack = s.cstack := rfl
@[simp] theorem State.outEmit_run (s : State) (v : Byte) : (s.outEmit v).run = s.run := rfl
@[simp] theorem State.outEmit_diag (s : State) (v : Byte) : (s.outEmit v).diag = s.diag := rfl
@[simp] theorem State.outEmit_out (s : State) (v : Byte) : (s.outEmit v).out = s.out ++ [v] := rfl
@[simp] theorem State.outEmit_inPos (s : State) (v : Byte) : (s.outEmit v).inPos = s.inPos := rfl
@[simp] theorem State.outEmit_intAcks (s : State) (v : Byte) : (s.outEmit v).intAcks = s.intAcks := rfl
@[simp] theorem State.outEmit_input (s : State) (v : Byte) : (s.outEmit v).input = s.input := rfl
@[simp] theorem State.outEmit_pendingRead (s : State) (v : Byte) : (s.outEmit v).pendingRead = s.pendingRead := rfl

/-! ### `State.ackInt` -/

@[simp] theorem State.ackInt_cfg (s : State) : s.ackInt.cfg = s.cfg := rfl
@[simp] theorem State.ackInt_x (s : State) : s.ackInt.x = s.x := rfl
@[simp] theorem State.ackInt_pc (s : State) : s.ackInt.pc = s.pc := rfl
@[simp] theorem State.ackInt_ir (s : State) : s.ackInt.ir = s.ir := rfl
@[simp] theorem State.ackInt_mem (s : State) : s.ackInt.mem = s.mem := rfl
@[simp] theorem State.ackInt_cstack (s : State) : s.ackInt.cstack = s.cstack := rfl
@[simp] theorem State.ackInt_run (s : State) : s.ackInt.run = s.run := rfl
@[simp] theorem State.ackInt_diag (s : State) : s.ackInt.diag = s.diag := rfl
@[simp] theorem State.ackInt_out (s : State) : s.ackInt.out = s.out := rfl
@[simp] theorem State.ackInt_inPos (s : State) : s.ackInt.inPos = s.inPos := rfl
@[simp] theorem State.ackInt_intAcks (s : State) : s.ackInt.intAcks = s.intAcks + 1 := rfl
@[simp] theorem State.ackInt_input (s : State) : s.ackInt.input = s.input := rfl
@[simp] theorem State.ackInt_pendingRead (s : State) : s.ackInt.pendingRead = s.pendingRead := rfl

/-! ### `State.answerInput` -/

@[simp] theorem State.answerInput_cfg (s : State) (b : Byte) : (s.answerInput b).cfg = s.cfg := rfl
@[simp] theorem State.answerInput_x (s : State) (b : Byte) : (s.answerInput b).x = s.x := rfl
@[simp] theorem State.answerInput_pc (s : State) (b : Byte) : (s.answerInput b).pc = s.pc := rfl
@[simp] theorem State.answerInput_ir (s : State) (b : Byte) : (s.answerInput b).ir = s.ir := rfl
@[simp] theorem State.answerInput_mem (s : State) (b : Byte) : (s.answerInput b).mem = s.mem := rfl
@[simp] theorem State.answerInput_cstack (s : State) (b : Byte) : (s.answerInput b).cstack = s.cstack := rfl
@[simp] theorem State.answerInput_run (s : State) (b : Byte) : (s.answerInput b).run = s.run := rfl
@[simp] theorem State.answerInput_diag (s : State) (b : Byte) : (s.answerInput b).diag = s.diag := rfl
@[simp] theorem State.answerInput_out (s : State) (b : Byte) : (s.answerInput b).out = s.out := rfl
@[simp] theorem State.answerInput_inPos (s : State) (b : Byte) : (s.answerInput b).inPos = s.inPos := rfl
@[simp] theorem State.answerInput_intAcks (s : State) (b : Byte) : (s.answerInput b).intAcks = s.intAcks := rfl
@[simp] theorem State.answerInput_input (s : State) (b : Byte) : (s.answerInput b).input = s.input ++ [b] := rfl
@[simp] theorem State.answerInput_pendingRead (s : State) (b : Byte) : (s.answerInput b).pendingRead = s.pendingRead := rfl

/-! ### `State.supply` -/

/-- Everything a supply can do: deliver the next byte of the stream, or nothing where the engine has a byte left, has halted,
or the source has none. -/
theorem State.supply_cases (src : InputSource) (s : State) :
    (∃ b, s.run = .running ∧ s.input.length ≤ s.inPos ∧ src s.input.length = some b ∧ s.supply src = s.answerInput b) ∨
    (s.supply src = s ∧ (s.run = .running → s.input.length ≤ s.inPos → src s.input.length = none)) := by
  unfold State.supply
  split
  · next h =>
    cases hb : src s.input.length with
    | some b => exact .inl ⟨b, h.1, h.2, rfl, rfl⟩
    | none => exact .inr ⟨rfl, fun _ _ => rfl⟩
  · next h => exact .inr ⟨rfl, fun hr hl => absurd ⟨hr, hl⟩ h⟩

/-- A supply only appends to the delivered input. -/
theorem State.supply_eq (src : InputSource) (s : State) : s.supply src = { s with input := (s.supply src).input } := by
  rcases s.supply_cases src with ⟨b, _, _, _, h⟩ | ⟨h, _⟩ <;> rw [h]; rfl

@[simp] theorem State.supply_cfg (src : InputSource) (s : State) : (s.supply src).cfg = s.cfg := by
  rw [s.supply_eq src]
@[simp] theorem State.supply_x (src : InputSource) (s : State) : (s.supply src).x = s.x := by
  rw [s.supply_eq src]
@[simp] theorem State.supply_pc (src : InputSource) (s : State) : (s.supply src).pc = s.pc := by
  rw [s.supply_eq src]
@[simp] theorem State.supply_ir (src : InputSource) (s : State) : (s.supply src).ir = s.ir := by
  rw [s.supply_eq src]
@[simp] theorem State.supply_mem (src : InputSource) (s : State) : (s.supply src).mem = s.mem := by
  rw [s.supply_eq src]
@[simp] theorem State.supply_cstack (src : InputSource) (s : State) : (s.supply src).cstack = s.cstack := by
  rw [s.supply_eq src]
@[simp] theorem State.supply_run (src : InputSource) (s : State) : (s.supply src).run = s.run := by
  rw [s.supply_eq src]
@[simp] theorem State.supply_diag (src : InputSource) (s : State) : (s.supply src).diag = s.diag := by
  rw [s.supply_eq src]
@[simp] theorem State.supply_out (src : InputSource) (s : State) : (s.supply src).out = s.out := by
  rw [s.supply_eq src]
@[simp] theorem State.supply_inPos (src : InputSource) (s : State) : (s.supply src).inPos = s.inPos := by
  rw [s.supply_eq src]
@[simp] theorem State.supply_intAcks (src : InputSource) (s : State) : (s.supply src).intAcks = s.intAcks := by
  rw [s.supply_eq src]
@[simp] theorem State.supply_pendingRead (src : InputSource) (s : State) : (s.supply src).pendingRead = s.pendingRead := by
  rw [s.supply_eq src]

/-! ### `State.withReg` -/

@[simp] theorem State.withReg_cfg (s : State) (k : Fin 4) (v : Byte) : (s.withReg k v).cfg = s.cfg := rfl
@[simp] theorem State.withReg_x (s : State) (k : Fin 4) (v : Byte) : (s.withReg k v).x = s.x.set k v := rfl
@[simp] theorem State.withReg_pc (s : State) (k : Fin 4) (v : Byte) : (s.withReg k v).pc = s.pc := rfl
@[simp] theorem State.withReg_ir (s : State) (k : Fin 4) (v : Byte) : (s.withReg k v).ir = s.ir := rfl
@[simp] theorem State.withReg_mem (s : State) (k : Fin 4) (v : Byte) : (s.withReg k v).mem = s.mem := rfl
@[simp] theorem State.withReg_cstack (s : State) (k : Fin 4) (v : Byte) : (s.withReg k v).cstack = s.cstack := rfl
@[simp] theorem State.withReg_run (s : State) (k : Fin 4) (v : Byte) : (s.withReg k v).run = s.run := rfl
@[simp] theorem State.withReg_diag (s : State) (k : Fin 4) (v : Byte) : (s.withReg k v).diag = s.diag := rfl
@[simp] theorem State.withReg_out (s : State) (k : Fin 4) (v : Byte) : (s.withReg k v).out = s.out := rfl
@[simp] theorem State.withReg_inPos (s : State) (k : Fin 4) (v : Byte) : (s.withReg k v).inPos = s.inPos := rfl
@[simp] theorem State.withReg_intAcks (s : State) (k : Fin 4) (v : Byte) : (s.withReg k v).intAcks = s.intAcks := rfl
@[simp] theorem State.withReg_input (s : State) (k : Fin 4) (v : Byte) : (s.withReg k v).input = s.input := rfl
@[simp] theorem State.withReg_pendingRead (s : State) (k : Fin 4) (v : Byte) : (s.withReg k v).pendingRead = s.pendingRead := rfl

/-! ### `State.writeReg` -/

@[simp] theorem State.writeReg_cfg (s : State) (i v : Byte) : (s.writeReg i v).cfg = s.cfg := by unfold State.writeReg; split <;> rfl
@[simp] theorem State.writeReg_pc (s : State) (i v : Byte) : (s.writeReg i v).pc = s.pc := by unfold State.writeReg; split <;> rfl
@[simp] theorem State.writeReg_ir (s : State) (i v : Byte) : (s.writeReg i v).ir = s.ir := by unfold State.writeReg; split <;> rfl
@[simp] theorem State.writeReg_mem (s : State) (i v : Byte) : (s.writeReg i v).mem = s.mem := by unfold State.writeReg; split <;> rfl
@[simp] theorem State.writeReg_cstack (s : State) (i v : Byte) : (s.writeReg i v).cstack = s.cstack := by unfold State.writeReg; split <;> rfl
@[simp] theorem State.writeReg_run (s : State) (i v : Byte) : (s.writeReg i v).run = s.run := by unfold State.writeReg; split <;> rfl
@[simp] theorem State.writeReg_diag (s : State) (i v : Byte) : (s.writeReg i v).diag = s.diag := by unfold State.writeReg; split <;> rfl
@[simp] theorem State.writeReg_out (s : State) (i v : Byte) : (s.writeReg i v).out = s.out := by unfold State.writeReg; split <;> rfl
@[simp] theorem State.writeReg_inPos (s : State) (i v : Byte) : (s.writeReg i v).inPos = s.inPos := by unfold State.writeReg; split <;> rfl
@[simp] theorem State.writeReg_intAcks (s : State) (i v : Byte) : (s.writeReg i v).intAcks = s.intAcks := by unfold State.writeReg; split <;> rfl
@[simp] theorem State.writeReg_input (s : State) (i v : Byte) : (s.writeReg i v).input = s.input := by unfold State.writeReg; split <;> rfl
@[simp] theorem State.writeReg_pendingRead (s : State) (i v : Byte) : (s.writeReg i v).pendingRead = s.pendingRead := by unfold State.writeReg; split <;> rfl

/-! ### `State.checkReg` -/

@[simp] theorem State.checkReg_cfg (s : State) (m : Mnemonic) (i : Byte) : (s.checkReg m i).cfg = s.cfg := by unfold State.checkReg; split <;> rfl
@[simp] theorem State.checkReg_x (s : State) (m : Mnemonic) (i : Byte) : (s.checkReg m i).x = s.x := by unfold State.checkReg; split <;> rfl
@[simp] theorem State.checkReg_pc (s : State) (m : Mnemonic) (i : Byte) : (s.checkReg m i).pc = s.pc := by unfold State.checkReg; split <;> rfl
@[simp] theorem State.checkReg_ir (s : State) (m : Mnemonic) (i : Byte) : (s.checkReg m i).ir = s.ir := by unfold State.checkReg; split <;> rfl
@[simp] theorem State.checkReg_mem (s : State) (m : Mnemonic) (i : Byte) : (s.checkReg m i).mem = s.mem := by unfold State.checkReg; split <;> rfl
@[simp] theorem State.checkReg_cstack (s : State) (m : Mnemonic) (i : Byte) : (s.checkReg m i).cstack = s.cstack := by unfold State.checkReg; split <;> rfl
@[simp] theorem State.checkReg_run (s : State) (m : Mnemonic) (i : Byte) : (s.checkReg m i).run = s.run := by unfold State.checkReg; split <;> rfl
@[simp] theorem State.checkReg_out (s : State) (m : Mnemonic) (i : Byte) : (s.checkReg m i).out = s.out := by unfold State.checkReg; split <;> rfl
@[simp] theorem State.checkReg_inPos (s : State) (m : Mnemonic) (i : Byte) : (s.checkReg m i).inPos = s.inPos := by unfold State.checkReg; split <;> rfl
@[simp] theorem State.checkReg_intAcks (s : State) (m : Mnemonic) (i : Byte) : (s.checkReg m i).intAcks = s.intAcks := by unfold State.checkReg; split <;> rfl
@[simp] theorem State.checkReg_input (s : State) (m : Mnemonic) (i : Byte) : (s.checkReg m i).input = s.input := by unfold State.checkReg; split <;> rfl
@[simp] theorem State.checkReg_pendingRead (s : State) (m : Mnemonic) (i : Byte) : (s.checkReg m i).pendingRead = s.pendingRead := by unfold State.checkReg; split <;> rfl

end Sys2Proof.Machine
end

