-- ==== Sys2Proof/Laws/Ops.lean ====
section
/-! SUPPORT. One lemma for each shared operation of the machine, saying once everything it can do; proofs cite these
instead of unfolding the operations. -/

namespace Sys2Proof.Machine

/-! ### Register operands (R108) -/

theorem State.readReg_of_lt (s : State) {i : Byte} (h : i.toNat < 4) : s.readReg i = s.x[i.toNat] := by
  simp [State.readReg, h]

theorem State.readReg_of_ge (s : State) {i : Byte} (h : 4 ≤ i.toNat) : s.readReg i = 0 := by
  simp [State.readReg, Nat.not_lt.mpr h]

theorem State.writeReg_of_lt (s : State) {i : Byte} (v : Byte) (h : i.toNat < 4) :
    s.writeReg i v = { s with x := s.x.set i.toNat v } := by
  simp [State.writeReg, h]

theorem State.writeReg_of_ge (s : State) {i : Byte} (v : Byte) (h : 4 ≤ i.toNat) : s.writeReg i v = s := by
  simp [State.writeReg, Nat.not_lt.mpr h]

theorem State.checkReg_of_lt (s : State) (m : Mnemonic) {i : Byte} (h : i.toNat < 4) : s.checkReg m i = s := by
  simp [State.checkReg, h]

theorem State.checkReg_of_ge (s : State) (m : Mnemonic) {i : Byte} (h : 4 ≤ i.toNat) :
    s.checkReg m i = s.report (.invalidIndex i (s.origin m)) := by
  simp [State.checkReg, Nat.not_lt.mpr h]

/-- The address of an instruction that `pc` stands just past (R106). -/
theorem State.origin_eq {s : State} {m : Mnemonic} {A : Byte} (h : s.pc = A + BitVec.ofNat 8 m.length) :
    s.origin m = A := by
  rw [State.origin, h]
  exact BitVec.add_sub_cancel A _

/-- A register write reaches the named register only. -/
theorem State.writeReg_x_other (s : State) (i v : Byte) (j : Fin 4) (h : j.val ≠ i.toNat) :
    (s.writeReg i v).x[j] = s.x[j] := by
  unfold State.writeReg
  split
  · exact Vector.getElem_set_ne ‹_› _ (Ne.symm h)
  · rfl

/-! ### The ALU instructions (R131) -/

/-- With a register that exists, an ALU instruction replaces it by the function of its value and the immediate. -/
theorem aluOp_of_lt (m : Mnemonic) (f : Byte → Byte → Byte) {reg : Byte} (val : Byte) (s : State)
    (h : reg.toNat < 4) :
    aluOp m f reg val s = .next { s with x := s.x.set reg.toNat (f s.x[reg.toNat] val) } := by
  simp only [aluOp, s.checkReg_of_lt m h, s.readReg_of_lt h, s.writeReg_of_lt _ h]

/-- With an index of 4 or more, an ALU instruction only reports it. -/
theorem aluOp_of_ge (m : Mnemonic) (f : Byte → Byte → Byte) {reg : Byte} (val : Byte) (s : State)
    (h : 4 ≤ reg.toNat) : aluOp m f reg val s = .next (s.report (.invalidIndex reg (s.origin m))) := by
  simp only [aluOp, s.checkReg_of_ge m h, State.writeReg_of_ge _ _ h]

/-! ### Input (R150, R151) -/

theorem State.inRead?_eq_some_iff {s t : State} {v : Byte} :
    s.inRead? = some (v, t) ↔ s.input[s.inPos]? = some v ∧ t = { s with inPos := s.inPos + 1, pendingRead := none } := by
  simp only [State.inRead?, Option.map_eq_some_iff, Prod.mk.injEq]
  constructor
  · rintro ⟨_, h, rfl, rfl⟩; exact ⟨h, rfl⟩
  · rintro ⟨h, rfl⟩; exact ⟨v, h, rfl, rfl⟩

theorem State.inRead?_eq_none_iff {s : State} : s.inRead? = none ↔ s.input.length ≤ s.inPos := by
  simp [State.inRead?]

/-! ### The call stack (R31) -/

theorem State.cstackFull_eq_true_iff {s : State} :
    s.cstackFull = true ↔ ∃ cap, s.cfg.cstackCap = some cap ∧ s.cstack.length = cap := by
  unfold State.cstackFull
  split <;> simp_all [eq_comm]

/-! ### Code bytes (R54, R104) -/

theorem State.codeBytes_cons {s : State} {n : Nat} {a : Byte} {b : Byte} (h : s.codeRead? a = some b) :
    s.codeBytes (n + 1) a = b :: s.codeBytes n (a + 1) := by
  simp [State.codeBytes, h]

theorem State.codeBytes_end {s : State} {n : Nat} {a : Byte} (h : s.codeRead? a = none) :
    s.codeBytes n a = [] := by
  cases n <;> simp [State.codeBytes, h]

theorem State.codeRead?_eq_none_iff {s : State} {a : Byte} : s.codeRead? a = none ↔ s.cfg.progLen ≤ a.toNat := by
  simp [State.codeRead?]

theorem State.codeBytes_length_le (s : State) (n : Nat) (a : Byte) : (s.codeBytes n a).length ≤ n := by
  induction n generalizing a with
  | zero => simp [State.codeBytes]
  | succ n ih =>
    simp only [State.codeBytes]
    split
    · simp
    · simpa using ih _

/-- Code bytes depend on the parameters alone. -/
theorem State.codeBytes_congr {s t : State} (h : s.cfg = t.cfg) (n : Nat) (a : Byte) :
    s.codeBytes n a = t.codeBytes n a := by
  induction n generalizing a with
  | zero => rfl
  | succ n ih => simp only [State.codeBytes, State.codeRead?, h, ih]

/-- A shorter window is the beginning of a longer one. -/
theorem State.codeBytes_take (s : State) (n k : Nat) (a : Byte) (h : k ≤ n) :
    (s.codeBytes n a).take k = s.codeBytes k a := by
  induction n generalizing k a with
  | zero =>
    obtain rfl : k = 0 := by omega
    rfl
  | succ n ih =>
    cases k with
    | zero => simp [State.codeBytes]
    | succ k =>
      simp only [State.codeBytes]
      split
      · rfl
      · simp only [List.take_succ_cons, ih k _ (by omega)]

/-! ### Fetch and decode (R101 to R105) -/

/-- Everything the phases before execute can do: the normal halt at the image's end, a fatal unknown opcode, a fatal
truncation, or an instruction with its fetches made. -/
theorem fetchDecode_cases (s : State) :
    (s.codeRead? s.pc = none ∧ fetchDecode s = .ended s.haltNormal) ∨
    (∃ b, s.codeRead? s.pc = some b ∧ s.cfg.opcodeOf.mnemonicOf? b = none ∧
      fetchDecode s = .ended ((s.consume [b]).raise (.unknownOpcode b s.pc))) ∨
    (∃ b tail m, s.codeBytes maxLength s.pc = b :: tail ∧ s.codeRead? s.pc = some b ∧
      s.cfg.opcodeOf.mnemonicOf? b = some m ∧ tail.length < m.arity ∧
      fetchDecode s = .ended ((s.consume (b :: tail)).raise (.truncatedInstruction b s.pc))) ∨
    (∃ b tail m, s.codeBytes maxLength s.pc = b :: tail ∧ s.codeRead? s.pc = some b ∧
      s.cfg.opcodeOf.mnemonicOf? b = some m ∧ m.arity ≤ tail.length ∧
      fetchDecode s = .run (Instr.ofOperands m (tail.getD 0 0) (tail.getD 1 0))
        (s.consume (b :: tail.take m.arity))) := by
  cases hb : s.codeRead? s.pc with
  | none =>
    have hw : s.codeBytes maxLength s.pc = [] := State.codeBytes_end hb
    left
    simp [fetchDecode, hw, decode]
  | some b =>
    obtain ⟨tail, hw⟩ : ∃ tail, s.codeBytes maxLength s.pc = b :: tail := ⟨_, State.codeBytes_cons hb⟩
    right
    cases hm : s.cfg.opcodeOf.mnemonicOf? b with
    | none =>
      left
      refine ⟨b, rfl, hm, ?_⟩
      simp [fetchDecode, hw, decode, hm]
    | some m =>
      right
      by_cases hlen : tail.length < m.arity
      · left
        refine ⟨b, tail, m, hw, rfl, hm, hlen, ?_⟩
        simp [fetchDecode, hw, decode, hm, hlen]
      · right
        refine ⟨b, tail, m, hw, rfl, hm, by omega, ?_⟩
        simp [fetchDecode, hw, decode, hm, hlen, Mnemonic.length, Nat.add_comm 1, List.take_succ_cons]

end Sys2Proof.Machine
end

