-- ==== Sys2Proof/Laws/PerInstr.lean ====
section
/-! SUPPORT. Per-instruction family `EncodingShape`: an encoding begins with the mnemonic's opcode and has the
instruction's length, which is 1 to 3 bytes (R70, R76). -/

namespace Sys2Proof.Laws.EncodingShape

/-- The shape of one instruction's encoding (R70). -/
def Statement (i : Instr) : Prop :=
  ∀ om : OpcodeMap, (encode om i).head? = some (om.of i.mnemonic) ∧ (encode om i).length = i.length ∧
    1 ≤ i.length ∧ i.length ≤ maxLength

/-- The shape follows from the mnemonic's arity, which is 0, 1 or 2 (R72). -/
theorem shape (i : Instr) : Statement i := by
  intro om
  have h := i.mnemonic.arity_le_two
  refine ⟨rfl, by simp [encode, Instr.length, Mnemonic.length, Nat.add_comm], ?_, ?_⟩
  · simp [Instr.length, Mnemonic.length]
  · simp only [Instr.length, Mnemonic.length, maxLength]; omega

theorem nop : Statement .nop := shape _
theorem load (reg val : Byte) : Statement (.load reg val) := shape _
theorem add (reg val : Byte) : Statement (.add reg val) := shape _
theorem sub (reg val : Byte) : Statement (.sub reg val) := shape _
theorem store (reg addr : Byte) : Statement (.store reg addr) := shape _
theorem and (reg val : Byte) : Statement (.and reg val) := shape _
theorem or (reg val : Byte) : Statement (.or reg val) := shape _
theorem xor (reg val : Byte) : Statement (.xor reg val) := shape _
theorem read (reg : Byte) : Statement (.read reg) := shape _
theorem write (reg : Byte) : Statement (.write reg) := shape _
theorem jmp (addr : Byte) : Statement (.jmp addr) := shape _
theorem call (addr : Byte) : Statement (.call addr) := shape _
theorem ret : Statement .ret := shape _
theorem beq (addr : Byte) : Statement (.beq addr) := shape _
theorem bne (addr : Byte) : Statement (.bne addr) := shape _
theorem int : Statement .int := shape _

end Sys2Proof.Laws.EncodingShape
end

