-- ==== Sys2Proof/Laws/Step.lean ====
section
/-! SUPPORT. What a step can do, said once: halted, waiting for input, ended before execute, or executing an instruction;
and what each execute phase can do. -/

namespace Sys2Proof.Machine

/-! ### A step -/

theorem step_of_halted {s : State} (h : s.run ≠ .running) : step s = .next s := by
  unfold step
  split <;> simp_all

theorem step_of_waiting {s : State} {reg : Byte} (hr : s.run = .running) (hp : s.pendingRead = some reg) :
    step s = execRead reg s := by
  simp [step, hr, hp, exec]

theorem step_of_ended {s t : State} (hr : s.run = .running) (hp : s.pendingRead = none)
    (hf : fetchDecode s = .ended t) : step s = .next t := by
  simp [step, hr, hp, hf]

theorem step_of_run {s t : State} {i : Instr} (hr : s.run = .running) (hp : s.pendingRead = none)
    (hf : fetchDecode s = .run i t) : step s = exec i t := by
  simp [step, hr, hp, hf]

/-- Everything a step can do. -/
theorem step_cases (s : State) :
    (s.run ≠ .running ∧ step s = .next s) ∨
    (∃ reg, s.run = .running ∧ s.pendingRead = some reg ∧ step s = execRead reg s) ∨
    (∃ t, s.run = .running ∧ s.pendingRead = none ∧ fetchDecode s = .ended t ∧ step s = .next t) ∨
    (∃ i t, s.run = .running ∧ s.pendingRead = none ∧ fetchDecode s = .run i t ∧ step s = exec i t) := by
  by_cases hr : s.run = .running
  · right
    cases hp : s.pendingRead with
    | some reg => exact .inl ⟨reg, hr, rfl, step_of_waiting hr hp⟩
    | none =>
      right
      cases hf : fetchDecode s with
      | ended t => exact .inl ⟨t, hr, rfl, rfl, step_of_ended hr hp hf⟩
      | run i t => exact .inr ⟨i, t, hr, rfl, rfl, step_of_run hr hp hf⟩
  · exact .inl ⟨hr, step_of_halted hr⟩

/-! ### Execute phases with more than one outcome -/

/-- READ: the byte delivered is consumed, checked and written, or the READ waits (R150). -/
theorem execRead_cases (reg : Byte) (s : State) :
    (∃ v, s.input[s.inPos]? = some v ∧
      execRead reg s = .next
        ((({ s with inPos := s.inPos + 1, pendingRead := none } : State).checkReg .read reg).writeReg reg v)) ∨
    (s.input.length ≤ s.inPos ∧ execRead reg s = .next (s.await reg)) := by
  cases h : s.inRead? with
  | none => exact .inr ⟨State.inRead?_eq_none_iff.mp h, by simp [execRead, h]⟩
  | some p =>
    obtain ⟨v, t⟩ := p
    obtain ⟨hv, rfl⟩ := State.inRead?_eq_some_iff.mp h
    exact .inl ⟨v, hv, by simp [execRead, h]⟩

/-- CALL: a fatal overflow on a full stack, else a push and a jump (R162). -/
theorem execCall_cases (addr : Byte) (s : State) :
    (s.cstackFull = true ∧ execCall addr s = .next (s.raise (.callStackOverflow (s.origin .call)))) ∨
    (s.cstackFull = false ∧ execCall addr s = .next ((s.push s.pc).setPc addr)) := by
  unfold execCall
  cases s.cstackFull <;> simp

/-- RET: a report on an empty stack, else a pop (R164). -/
theorem execRet_cases (s : State) :
    (s.cstack = [] ∧ execRet s = .next (s.report (.callStackUnderflow (s.origin .ret)))) ∨
    (∃ target rest, s.cstack = target :: rest ∧ execRet s = .next ({ s with cstack := rest }.setPc target)) := by
  cases h : s.cstack with
  | nil => exact .inl ⟨rfl, by simp [execRet, h]⟩
  | cons target rest => exact .inr ⟨target, rest, rfl, by simp [execRet, h]⟩

/-- BEQ and BNE: a jump or nothing (R165 to R167). -/
theorem State.branchEqual_iff (s : State) : s.branchEqual = true ↔ s.x[0] = s.x[1] := by
  simp [State.branchEqual]

end Sys2Proof.Machine
end

