-- ==== Sys2Proof/Laws/Run.lean ====
section
/-! SUPPORT. Runs of several steps. -/

namespace Sys2Proof.Machine

theorem runFor_succ {n : Nat} {s t : State} (h : step s = .next t) : runFor (n + 1) s = runFor n t := by
  simp only [runFor, h]

theorem host_run_next (M : Host.Core) {n : Nat} {s t : M.State} (h : M.step s = .next t) :
    M.run (n + 1) s = M.run n t := by
  simp only [Host.Core.run, h]

theorem host_run_refused (M : Host.Core) {n : Nat} {s : M.State} {r : M.Refusal} (h : M.step s = .refused r) :
    M.run (n + 1) s = .refused r := by
  simp only [Host.Core.run, h]

/-- A run is the host's run of the machine. -/
theorem runFor_eq_host (n : Nat) (s : State) : Host.Core.run Sys2Proof.core n s = runFor n s := by
  induction n generalizing s with
  | zero => rfl
  | succ n ih =>
    cases h : step s with
    | next t => exact (host_run_next Sys2Proof.core h).trans ((ih t).trans (runFor_succ h).symm)
    | fault r => cases r
    | refused r =>
      refine (host_run_refused Sys2Proof.core h).trans ?_
      simp only [runFor, h]
      rfl

/-- A source that never delivers leaves the host's run of the machine. -/
theorem runWith_silent (n : Nat) (s : State) : runWith (fun _ => none) n s = runFor n s := by
  induction n generalizing s with
  | zero => rfl
  | succ n ih =>
    have : s.supply (fun _ => none) = s := by
      rcases s.supply_cases (fun _ => none) with ⟨_, _, _, h, _⟩ | ⟨h, _⟩
      · cases h
      · exact h
    simp only [runWith, runFor, this, ih]

theorem State.reaches_zero {src : InputSource} {s t : State} : s.Reaches src 0 t ↔ s = t := by
  simp [State.Reaches, runWith]

theorem State.reaches_succ {src : InputSource} {n : Nat} {s t u : State} (h : step (s.supply src) = .next u) :
    s.Reaches src (n + 1) t ↔ u.Reaches src n t := by
  simp only [State.Reaches, runWith, h]

/-- A state that a supplied step answers by itself reaches only itself. -/
theorem State.reaches_of_fixed {src : InputSource} {n : Nat} {s : State} (h : step (s.supply src) = .next s) :
    s.Reaches src n s := by
  induction n with
  | zero => rfl
  | succ n ih => exact (State.reaches_succ h).mpr ih

/-- A halted engine asks for no byte and stays as it is. -/
theorem step_supply_of_halted {src : InputSource} {s : State} (h : s.run ≠ .running) : step (s.supply src) = .next s := by
  have : s.supply src = s := by
    rcases s.supply_cases src with ⟨_, hr, _⟩ | ⟨e, _⟩
    · exact absurd hr h
    · exact e
  rw [this, step_of_halted h]

/-- A READ whose byte never comes stays as it is (R110 d). -/
theorem step_supply_of_starved {src : InputSource} {s : State} (h : s.Starved src) : step (s.supply src) = .next s := by
  obtain ⟨hr, hb, hn⟩ := h
  simp only [State.blocked, Bool.and_eq_true, decide_eq_true_eq, Option.isSome_iff_exists] at hb
  obtain ⟨⟨reg, hp⟩, hl⟩ := hb
  have : s.supply src = s := by
    rcases s.supply_cases src with ⟨_, _, _, h, _⟩ | ⟨e, _⟩
    · rw [hn] at h; cases h
    · exact e
  rw [this, step_of_waiting hr hp]
  rcases execRead_cases reg s with ⟨v, hv, _⟩ | ⟨_, e⟩
  · rw [List.getElem?_eq_none hl] at hv; cases hv
  · rw [e, State.await, ← hp]

end Sys2Proof.Machine
end

