-- ==== Sys2Proof/Tests/Slice0.lean ====
section
/-! SUPPORT. Tests: words written out from the spec's encodings, the spec's own vectors (95_test_vectors.md, whose ids stand
in the comments), ill-formed terms that the checks refuse, and for every obligation with hypotheses a state and operands
that meet them all. -/

open Sys2Proof Sys2Proof.Machine

namespace Sys2Proof.Tests

/-- The parameters with an image, the default opcode map and an unbounded stack. -/
def image (bs : List Byte) : Config := { opcodeOf := OpcodeMap.default, prog := bs, cstackCap := none }

/-- The machine after reset with an image and an input stream. -/
def loaded (bs : List Byte) (input : List Byte := []) : State := State.resetWith (image bs) input

/-- The machine with some bytes at an address, zero bytes before them, and pc there. -/
def loadedAt (a : Nat) (bs : List Byte) : State :=
  { loaded (List.replicate a 0 ++ bs) with pc := BitVec.ofNat 8 a }

/-- The next state of a step. -/
def after (s : State) : State :=
  match step s with
  | .next t => t
  | .fault _ => s
  | .refused _ => s

/-! ### Decoding: one word for each instruction, from 30_encoding.md R71 and R73 -/

theorem test_decode_nop : decode OpcodeMap.default [0b00000000] = .ok (.nop, []) := by decide
theorem test_decode_load : decode OpcodeMap.default [0b00000001, 0b00000010, 0b11001000] = .ok (.load 2 200, []) := by decide
theorem test_decode_add : decode OpcodeMap.default [0b00000010, 0b00000000, 0b11111010] = .ok (.add 0 250, []) := by decide
theorem test_decode_sub : decode OpcodeMap.default [0b00000011, 0b00000001, 0b11001000] = .ok (.sub 1 200, []) := by decide
theorem test_decode_store : decode OpcodeMap.default [0b00000100, 0b00000001, 0b00010000] = .ok (.store 1 16, []) := by decide
theorem test_decode_and : decode OpcodeMap.default [0b00000101, 0b00000000, 0b00000001] = .ok (.and 0 1, []) := by decide
theorem test_decode_or : decode OpcodeMap.default [0b00000110, 0b00000011, 0b11110000] = .ok (.or 3 240, []) := by decide
theorem test_decode_xor : decode OpcodeMap.default [0b00000111, 0b00000001, 0b11111111] = .ok (.xor 1 255, []) := by decide
theorem test_decode_read : decode OpcodeMap.default [0b00001000, 0b00000010] = .ok (.read 2, []) := by decide
theorem test_decode_write : decode OpcodeMap.default [0b00001001, 0b00000000] = .ok (.write 0, []) := by decide
theorem test_decode_jmp : decode OpcodeMap.default [0b00001010, 0b00000111] = .ok (.jmp 7, []) := by decide
theorem test_decode_call : decode OpcodeMap.default [0b00001011, 0b00000101] = .ok (.call 5, []) := by decide
theorem test_decode_ret : decode OpcodeMap.default [0b00001100] = .ok (.ret, []) := by decide
theorem test_decode_beq : decode OpcodeMap.default [0b00001101, 0b00001001] = .ok (.beq 9, []) := by decide
theorem test_decode_bne : decode OpcodeMap.default [0b00001110, 0b00000110] = .ok (.bne 6, []) := by decide
theorem test_decode_int : decode OpcodeMap.default [0b00001111] = .ok (.int, []) := by decide

/-- The bytes after an instruction are left. -/
theorem test_decode_leaves_rest : decode OpcodeMap.default [0x08, 0x02, 0x0C, 0xFF] = .ok (.read 2, [0x0C, 0xFF]) := by decide
/-- 0x10 is the first invalid byte (V-E3). -/
theorem test_decode_refuses_0x10 : decode OpcodeMap.default [0x10, 0x00] = .error (.unknownOpcode 0x10) := by decide
theorem test_decode_refuses_truncated : decode OpcodeMap.default [0x01, 0x00] = .error (.truncated 0x01) := by decide
theorem test_decode_refuses_empty : decode OpcodeMap.default [] = .error .noOpcode := by decide
/-- Byte 1 of a table word is bits 15..8, byte 2 bits 23..16. -/
theorem test_table_word_order : decodeTableWord 24 0xC80201 = some (.load 2 200) := by decide
theorem test_table_word_pads_zero : decodeTableWord 8 0xFFFF0B = some (.call 0) := by decide
theorem test_table_word_refuses : decodeTableWord 8 0x10 = none := by decide
/-- A placed word wraps past address 255. -/
theorem test_placed_word_wraps :
    let t := after (({ State.reset with pc := 255 } : State).withFetchWord 24 0x091303);
    t.pc = 2 ∧ t.ir = 0x03 ∧ t.diag = [.invalidIndex 0x13 255] := ⟨rfl, rfl, rfl⟩

/-! ### Well-formedness: each check refuses an ill-formed term -/

theorem test_wf_accepts_default : OpcodeMap.default.wf = true := by decide
theorem test_wf_refuses_shared_opcode : ({ OpcodeMap.default with add := 0x01 } : OpcodeMap).wf = false := by decide
theorem test_config_wf_refuses_shared_opcode :
    ({ image [] with opcodeOf := { OpcodeMap.default with int := 0x00 } } : Config).wf = false := by decide
theorem test_regInRange_accepts_three : (Instr.load 3 7).regInRange = true := by decide
theorem test_regInRange_refuses_four : (Instr.load 4 7).regInRange = false := by decide
theorem test_imageWhole_accepts : (image [0x01, 0x02, 0xC8, 0x0C]).imageWhole = true := by decide
theorem test_imageWhole_refuses_truncated : (image [0x0C, 0x01, 0x02]).imageWhole = false := by decide
theorem test_imageWhole_refuses_stray_byte : (image [0x0C, 0xFF]).imageWhole = false := by decide
theorem test_memory_wf_refuses_zero_cell : Memory.wf [(3, 0)] = false := by decide
theorem test_memory_wf_refuses_unsorted : Memory.wf [(3, 1), (2, 1)] = false := by decide
theorem test_memory_wf_refuses_address_256 : Memory.wf [(256, 1)] = false := by decide

/-! ### The sequencer (V-E1 to V-E8) -/

/-- V-E1. -/
theorem test_empty_image_halts : after State.reset = { State.reset with run := .haltedNormal } := by decide
/-- V-E2. -/
theorem test_unknown_opcode : after (loaded [0xFF]) =
    { loaded [0xFF] with ir := 0xFF, pc := 1, run := .haltedError, diag := [.unknownOpcode 0xFF 0] } := by decide
/-- V-E4. -/
theorem test_truncated_after_first_operand : after (loaded [0x01, 0x00]) =
    { loaded [0x01, 0x00] with ir := 0x01, pc := 2, run := .haltedError, diag := [.truncatedInstruction 0x01 0] } := by decide
/-- V-E6: nothing is pushed. -/
theorem test_truncated_call : after (loaded [0x0B]) =
    { loaded [0x0B] with ir := 0x0B, pc := 1, run := .haltedError, diag := [.truncatedInstruction 0x0B 0] } := by decide
/-- V-E8: byte 3 decodes as ADD. -/
theorem test_mid_operand_decodes : (after { loaded [0x0A, 0x03, 0x01, 0x02, 0x09] with pc := 3 }).diag =
    [.truncatedInstruction 0x02 3] := by decide
/-- With 256 bytes pc wraps from 255 to 0 (V-E7). -/
theorem test_pc_wraps : (after { loaded (List.replicate 256 0) with pc := 255 }).pc = 0 := by decide

/-! ### The instructions -/

/-- V-D1. -/
theorem test_nop : after (loadedAt 7 [0x00]) = { loadedAt 7 [0x00] with pc := 8 } := by decide
/-- V-D2. -/
theorem test_load : (after { loaded [0x01, 0x02, 0xC8] with x := #v[1, 2, 5, 3] }).x.toList = [1, 2, 200, 3] := by decide
/-- V-D4. -/
theorem test_load_invalid : after { loaded [0x01, 0x04, 0x07] with x := #v[1, 2, 3, 4] } =
    { loaded [0x01, 0x04, 0x07] with x := #v[1, 2, 3, 4], pc := 3, ir := 1, diag := [.invalidIndex 4 0] } := by decide
/-- V-D6: the highest address. -/
theorem test_store : (after { loaded [0x04, 0x00, 0xFF] with x := #v[1, 2, 3, 4] }).mem = [(255, 1)] := by decide
/-- V-D7: the substituted 0 is stored. -/
theorem test_store_invalid : after { loaded [0x04, 0x05, 0x09] with mem := [(9, 3)] } =
    { loaded [0x04, 0x05, 0x09] with pc := 3, ir := 4, diag := [.invalidIndex 5 0] } := by decide
/-- V-A1. -/
theorem test_add_wraps : (after { loaded [0x02, 0x00, 0xFA] with x := #v[10, 1, 2, 3] }).x.toList = [4, 1, 2, 3] := by decide
/-- V-A14. -/
theorem test_add_invalid : (after (loaded [0x02, 0x07, 0x01])).diag = [.invalidIndex 7 0] := by decide
/-- V-A5. -/
theorem test_sub_wraps : (after (loaded [0x03, 0x00, 0x01])).x.toList = [255, 0, 0, 0] := by decide
/-- V-A6: the register is the minuend. -/
theorem test_sub_order : (after { loaded [0x03, 0x01, 0xC8] with x := #v[0, 100, 0, 0] }).x.toList = [0, 156, 0, 0] := by decide
/-- V-A8: the operand is an immediate (C1). -/
theorem test_and_immediate : (after { loaded [0x05, 0x00, 0x01] with x := #v[15, 8, 0, 0] }).x.toList = [1, 8, 0, 0] := by decide
/-- V-A10. -/
theorem test_or : (after { loaded [0x06, 0x03, 0xF0] with x := #v[0, 0, 0, 0x0F] }).x.toList = [0, 0, 0, 0xFF] := by decide
/-- V-A12. -/
theorem test_xor : (after { loaded [0x07, 0x01, 0xFF] with x := #v[0, 0x5A, 0, 0] }).x.toList = [0, 0xA5, 0, 0] := by decide
/-- V-IO2: the byte is consumed and discarded. -/
theorem test_read_invalid : after (loaded [0x08, 0x06] [99, 5]) =
    { loaded [0x08, 0x06] [99, 5] with pc := 2, ir := 8, inPos := 1, diag := [.invalidIndex 6 0] } := by decide
/-- V-IO3: stuck in the step, Running. -/
theorem test_read_waits : after (loaded [0x08, 0x00]) =
    { loaded [0x08, 0x00] with pc := 2, ir := 8, pendingRead := some 0 } := by decide
/-- V-IO1, the byte arriving while the READ waits. -/
theorem test_answer_ends_wait : after ((after (loaded [0x08, 0x02])).answerInput 42) =
    { loaded [0x08, 0x02] [42] with pc := 2, ir := 8, inPos := 1, x := #v[0, 0, 42, 0] } := by decide
/-- V-IO4. -/
theorem test_write : (after { loaded [0x09, 0x00] with x := #v[65, 0, 0, 0], out := [7] }).out = [7, 65] := by decide
/-- V-IO5. -/
theorem test_write_invalid : (after (loaded [0x09, 0x04])).out = [0] := by decide
/-- V-C1. -/
theorem test_jmp : (after (loaded [0x0A, 0x07])).pc = 7 := by decide
/-- V-C6: the operand stands at address 0 and the return address is 1. -/
theorem test_call_wraps : let t := after { loaded (0x09 :: List.replicate 254 0 ++ [0x0B]) with pc := 255 };
    t.pc = 9 ∧ t.ir = 0x0B ∧ t.cstack = [1] := ⟨rfl, rfl, rfl⟩
/-- V-C7. -/
theorem test_call_overflow :
    let s := { State.resetWith { image [0x0B, 0x05] with cstackCap := some 1 } [] with cstack := [40] }
    after s = { s with pc := 2, ir := 0x0B, run := .haltedError, diag := [.callStackOverflow 0] } := by decide
/-- V-C8, the top of the stack first. -/
theorem test_ret : after { loadedAt 10 [0x0C] with cstack := [6, 2] } =
    { loadedAt 10 [0x0C] with cstack := [2], pc := 6, ir := 0x0C } := by decide
/-- V-C9. -/
theorem test_ret_underflow : after (loadedAt 3 [0x0C]) =
    { loadedAt 3 [0x0C] with pc := 4, ir := 0x0C, diag := [.callStackUnderflow 3] } := by decide
/-- V-BR1. -/
theorem test_beq_taken : (after { loadedAt 4 [0x0D, 0x09] with x := #v[3, 3, 0, 0] }).pc = 9 := by decide
/-- V-BR2. -/
theorem test_beq_falls_through : (after { loadedAt 4 [0x0D, 0x09] with x := #v[3, 4, 0, 0] }).pc = 6 := by decide
/-- V-BR3. -/
theorem test_bne_taken : (after { loadedAt 4 [0x0E, 0x09] with x := #v[3, 4, 0, 0] }).pc = 9 := by decide
/-- V-BR4. -/
theorem test_bne_falls_through : (after { loadedAt 4 [0x0E, 0x09] with x := #v[3, 3, 0, 0] }).pc = 6 := by decide
/-- V-I1. -/
theorem test_int : after (loadedAt 3 [0x0F]) = { loadedAt 3 [0x0F] with pc := 4, ir := 0x0F, intAcks := 1 } := by decide

/-! ### The ALU, the error codes, status and dump -/

/-- R130. -/
theorem test_alu_nop : aluNop 0xFF 0x01 = 0 := by decide
/-- The codes and the fatal kinds of R203. -/
theorem test_cause_table :
    ([ErrorKind.unknownOpcode, .truncatedInstruction, .callStackOverflow, .invalidIndex, .callStackUnderflow].map
      fun k => (k.code, k.fatal)) = [(1, true), (2, true), (3, true), (16, false), (17, false)] := by decide
/-- R218. -/
theorem test_status : (after (loaded [0xFF])).status = (.haltedError, 1) := by decide
/-- V-D8: a cell written with 0 is not shown. -/
theorem test_dump_omits_zero : ({ State.reset with mem := Memory.write [(9, 3)] 9 0 } : State).dump.cells = [] := by decide
theorem test_dump_in_order : ({ State.reset with mem := Memory.write [(9, 3)] 4 7 } : State).dump.cells = [(4, 7), (9, 3)] := by decide

/-! ### The assembler (V-S1 to V-S10) -/

/-- V-S1. -/
theorem test_asm_unknown : assembleLine OpcodeMap.default ['F', 'O', 'O', ' ', '1'] =
    ([], [.unknownInstruction ['F', 'O', 'O']]) := by decide
/-- V-S2. -/
theorem test_asm_count : assembleLine OpcodeMap.default ['L', 'O', 'A', 'D', ' ', '1'] =
    ([0x01], [.operandCountMismatch .load 2 1]) := by decide
/-- V-S3. -/
theorem test_asm_range : assembleLine OpcodeMap.default ['L', 'O', 'A', 'D', ' ', '0', ' ', '3', '0', '0'] =
    ([0x01, 0x00], [.invalidOperand .load ['3', '0', '0']]) := by decide
/-- V-S5. -/
theorem test_asm_comment : assembleLine OpcodeMap.default ['N', 'O', 'P', ' ', '#', ' ', 'c'] = ([0x00], []) := by decide
/-- V-S6. -/
theorem test_asm_blank : assembleLine OpcodeMap.default [' ', '#', 'c'] = ([], []) := by decide
/-- V-S7. -/
theorem test_asm_case : assembleLine OpcodeMap.default ['n', 'o', 'p'] = ([], [.unknownInstruction ['n', 'o', 'p']]) := by decide
/-- V-S9. -/
theorem test_asm_hex : assembleLine OpcodeMap.default ['R', 'E', 'A', 'D', ' ', '0', 'x', '1'] =
    ([0x08], [.invalidOperand .read ['0', 'x', '1']]) := by decide
/-- V-S10. -/
theorem test_asm_invalid_index : assembleLine OpcodeMap.default ['L', 'O', 'A', 'D', ' ', '7', ' ', '1'] =
    ([0x01, 0x07, 0x01], []) := by decide

/-! ### Witnesses: the hypotheses of the obligations hold together somewhere -/

/-- A state with an instruction's end at pc = 3, for the clauses about an index in range and beyond. -/
def past3 : State := { State.reset with pc := 3 }

/-- A state with pc = 2, one byte delivered and none consumed. -/
def past2 : State := { State.reset with pc := 2, input := [7] }

theorem witness_DecodeEncodeRoundTrip : OpcodeMap.default.wf = true := by decide
theorem witness_DecodedBytesReencode : decode OpcodeMap.default [0x04, 0x01, 0x10, 0x0C] = .ok (.store 1 16, [0x0C]) := by decide
theorem witness_DecodeRejectsByName : OpcodeMap.default.wf = true ∧ (∀ m, OpcodeMap.default.of m ≠ 0x10) ∧
    ∃ m, OpcodeMap.default.of m = 0x0A ∧ ([] : List Byte).length < m.arity :=
  ⟨by decide, by intro m; cases m <;> decide, .jmp, by decide⟩
/-- The last byte of the window and the first address beyond the image. -/
theorem witness_FetchWindowBytes :
    (1 < 3 ∧ ∀ j ≤ 1, ((0 : Byte) + BitVec.ofNat 8 j).toNat < (loaded [0x08, 0x02]).cfg.progLen) ∧
    ¬(2 < 3 ∧ ∀ j ≤ 2, ((0 : Byte) + BitVec.ofNat 8 j).toNat < (loaded [0x08, 0x02]).cfg.progLen) := by decide
theorem witness_PlacedWordRuns : decodeTableWord 16 0x070A = some (.jmp 7) := by decide
theorem witness_StepRunsDecodedInstruction : (loaded [0x0A, 0x07]).run = .running ∧ (loaded [0x0A, 0x07]).pendingRead = none ∧
    decode (loaded [0x0A, 0x07]).cfg.opcodeOf ((loaded [0x0A, 0x07]).codeBytes maxLength (loaded [0x0A, 0x07]).pc) =
      .ok (.jmp 7, []) := by decide
/-- pc equal to L. -/
theorem witness_HaltCheckAtImageEnd : let s := { loaded [0x00] with pc := 1 }
    s.run = .running ∧ s.pendingRead = none ∧ s.cfg.progLen ≤ s.pc.toNat ∧
    ∃ t, step s = .next t ∧ t.run = .haltedNormal := ⟨rfl, rfl, by decide, _, rfl, rfl⟩
theorem witness_UnknownOpcodeHalts : let s := loaded [0x10]
    s.run = .running ∧ s.pendingRead = none ∧ s.cfg.prog[s.pc.toNat]? = some 0x10 ∧
    (∀ m, s.cfg.opcodeOf.of m ≠ 0x10) ∧ s.cfg.opcodeOf.wf = true :=
  ⟨rfl, rfl, rfl, by intro m; cases m <;> decide, by decide⟩
theorem witness_UnknownOpcodeHalts_valid : let s := loaded [0x0F]
    s.run = .running ∧ s.pendingRead = none ∧ s.cfg.prog[s.pc.toNat]? = some 0x0F ∧ s.cfg.opcodeOf.wf = true ∧
    s.cfg.opcodeOf.of .int = 0x0F := by decide
/-- The second operand is missing (k = 1). -/
theorem witness_TruncatedInstructionHalts : let s := loadedAt 3 [0x01, 0x00]
    s.run = .running ∧ s.pendingRead = none ∧ s.cfg.prog[s.pc.toNat]? = some 0x01 ∧
    s.cfg.opcodeOf.mnemonicOf? 0x01 = some .load ∧ 1 < Mnemonic.load.arity ∧
    (∀ j < 1, (s.pc + 1 + BitVec.ofNat 8 j).toNat < s.cfg.progLen) ∧
    s.cfg.progLen ≤ (s.pc + 1 + BitVec.ofNat 8 1).toNat := by decide
theorem witness_StepRefinesSequencerPseudocode : (loaded [0x00]).run = .running ∧ (loaded [0x00]).pendingRead = none := by decide
theorem witness_HaltedStatesAbsorb : ({ State.reset with run := .haltedError } : State).run ≠ .running := by decide
/-- The indices 3 and 4 at pc = A + 3, for LOAD, STORE, ADD, SUB, AND, OR and XOR. -/
theorem witness_three_byte_forms : past3.mem.wf = true ∧ past3.pc = (0 : Byte) + 3 ∧ (3 : Byte).toNat < 4 ∧
    4 ≤ (4 : Byte).toNat := by decide
theorem witness_ReadTakesNextInput : past2.pc = (0 : Byte) + 2 ∧ past2.input[past2.inPos]? = some 7 ∧ (3 : Byte).toNat < 4 ∧
    4 ≤ (4 : Byte).toNat := by decide
theorem witness_ReadTakesNextInput_waits : let s := { past2 with inPos := 1 }
    s.pc = (0 : Byte) + 2 ∧ s.input.length ≤ s.inPos := by decide
theorem witness_WriteEmitsRegister : past2.pc = (0 : Byte) + 2 ∧ (3 : Byte).toNat < 4 ∧ 4 ≤ (4 : Byte).toNat := by decide
/-- A bounded stack that is one short of full. -/
theorem witness_CallPushesReturnAddress : let s := { past2 with cfg := { image [] with cstackCap := some 1 } }
    s.pc = (0 : Byte) + 2 ∧ ∀ cap, s.cfg.cstackCap = some cap → s.cstack.length ≠ cap :=
  ⟨rfl, by rintro _ ⟨⟩; decide⟩
/-- A bounded stack that is full, and one of capacity 0. -/
theorem witness_CallPushesReturnAddress_full :
    (let s := { past2 with cfg := { image [] with cstackCap := some 1 }, cstack := [40] };
      s.pc = (0 : Byte) + 2 ∧ s.cfg.cstackCap = some 1 ∧ s.cstack.length = 1) ∧
    (let s := { past2 with cfg := { image [] with cstackCap := some 0 } };
      s.pc = (0 : Byte) + 2 ∧ s.cfg.cstackCap = some 0 ∧ s.cstack.length = 0) := by decide
theorem witness_RetPopsReturnAddress : let s := { State.reset with pc := 1, cstack := [9] }
    s.pc = (0 : Byte) + 1 ∧ s.cstack = 9 :: [] := by decide
theorem witness_RetPopsReturnAddress_empty : let s := { State.reset with pc := 1 }
    s.pc = (0 : Byte) + 1 ∧ s.cstack = [] := by decide
theorem witness_JmpSetsPc_off_image : (loaded [0x0A, 0x07]).run = .running ∧ (loaded [0x0A, 0x07]).pendingRead = none ∧
    (loaded [0x0A, 0x07]).cfg.progLen ≤ (7 : Byte).toNat := by decide
theorem witness_JmpSetsPc_own_address : let s := loaded [0x0A, 0x00]
    s.run = .running ∧ s.pendingRead = none ∧
    decode s.cfg.opcodeOf (s.codeBytes maxLength s.pc) = .ok (.jmp s.pc, []) := by decide
theorem witness_BeqBranchesOnEqual_own_address : let s := loaded [0x0D, 0x00]
    s.x[0] = s.x[1] ∧ s.run = .running ∧ s.pendingRead = none ∧
    decode s.cfg.opcodeOf (s.codeBytes maxLength s.pc) = .ok (.beq s.pc, []) := by decide
theorem witness_branch_equal : State.reset.x[0] = State.reset.x[1] := by decide
theorem witness_branch_different : let s := { State.reset with x := #v[3, 4, 0, 0] }
    s.x[0] ≠ s.x[1] := by decide
theorem witness_RetUndoesCall : past2.cstackFull = false := by decide
theorem witness_RegisterFormsFrame : ∃ t, Instr.xor 3 9 ∈ [Instr.load 3 9, .add 3 9, .sub 3 9, .and 3 9, .or 3 9, .xor 3 9] ∧
    exec (.xor 3 9) past3 = .next t ∧ (0 : Fin 4).val ≠ (3 : Byte).toNat ∧ (3 : Byte).toNat < 4 :=
  ⟨_, by decide, rfl, by decide, by decide⟩
theorem witness_StoreFrame : ∃ t, exec (.store 3 255) past3 = .next t ∧ 254 ≠ (255 : Byte).toNat ∧ (3 : Byte).toNat < 4 :=
  ⟨_, rfl, by decide, by decide⟩
theorem witness_ChannelFormsFrame : (∃ t, Instr.read 3 ∈ [Instr.read 3, .write 3] ∧ exec (.read 3) past2 = .next t) ∧
    ∃ t, Instr.write 3 ∈ [Instr.read 3, .write 3] ∧ exec (.write 3) past2 = .next t :=
  ⟨⟨_, by decide, rfl⟩, ⟨_, by decide, rfl⟩⟩
theorem witness_ControlFormsFrame : ∃ t, Instr.beq 9 ∈ [Instr.jmp 9, .call 9, .ret, .beq 9, .bne 9, .nop, .int] ∧
    exec (.beq 9) past2 = .next t ∧ Instr.beq 9 ≠ .call 9 ∧ Instr.beq 9 ≠ .ret ∧ Instr.beq 9 ≠ .int :=
  ⟨_, by decide, rfl, by decide, by decide, by decide⟩
theorem witness_ControlFormsFrame_pc : ∃ t, Instr.int ∈ [Instr.jmp 9, .call 9, .ret, .beq 9, .bne 9, .nop, .int] ∧
    exec .int past2 = .next t := ⟨_, by decide, rfl⟩
theorem witness_RegisterReadersAndWriters_written : ∃ t, exec (.load 2 5) past3 = .next t ∧ t.x[(2 : Fin 4)] ≠ past3.x[(2 : Fin 4)] :=
  ⟨_, rfl, by decide⟩
theorem witness_RegisterReadersAndWriters_independent : readsReg 2 (.beq 9) = false ∧
    ∀ reg, writtenReg? (.beq 9) = some reg → reg.toNat ≠ (2 : Fin 4).val := ⟨by decide, by rintro _ ⟨⟩⟩
theorem witness_RegisterReadersAndWriters_unread : (3 : Byte).toNat = (3 : Fin 4).val ∧ past2.inPos < past2.input.length := by decide
theorem witness_DataMemoryWriteOnly : ∃ t, exec (.load 2 5) past3 = .next t ∧ ∀ reg addr, Instr.load 2 5 ≠ .store reg addr :=
  ⟨_, rfl, by intro _ _ h; cases h⟩
theorem witness_OnlyRetReadsStack : Instr.call 5 ≠ .ret ∧ past2.cfg.cstackCap = none := by decide
/-- A step from Running that answers next, as the whole-machine rules ask. -/
theorem witness_step : (loaded [0x0B, 0x05]).run = .running ∧ ∃ t, step (loaded [0x0B, 0x05]) = .next t := ⟨rfl, _, rfl⟩
/-- The shortest image that never halts normally. -/
theorem witness_LongImageNeverHaltsNormally : 256 ≤ (loaded (List.replicate 256 0)).cfg.progLen ∧
    (loaded (List.replicate 256 0)).run = .running :=
  ⟨le_of_eq (List.length_replicate (a := (0 : Byte))).symm, rfl⟩
theorem witness_FatalErrorIsPrecise_truncated : (loaded [0x01, 0x00]).run = .running ∧
    ∃ t, step (loaded [0x01, 0x00]) = .next t ∧ t.run = .haltedError := ⟨rfl, _, rfl, rfl⟩
theorem witness_FatalErrorIsPrecise_overflow : let s := State.resetWith { image [0x0B, 0x00] with cstackCap := some 0 } []
    s.run = .running ∧ ∃ t, step s = .next t ∧ t.run = .haltedError := ⟨rfl, _, rfl, rfl⟩
theorem witness_FatalErrorIsPrecise : (loaded [0xFF]).run = .running ∧
    ∃ t, step (loaded [0xFF]) = .next t ∧ t.run = .haltedError := ⟨rfl, _, rfl, rfl⟩
theorem witness_IrHoldsFetchedOpcode : (loaded [0x0F]).run = .running ∧ (loaded [0x0F]).pendingRead = none ∧
    ∃ t, step (loaded [0x0F]) = .next t ∧ t.run ≠ .haltedNormal := ⟨rfl, rfl, _, rfl, by decide⟩
theorem witness_PcSetOnlyByControlFlow : ∃ t, exec (.bne 9) { past2 with x := #v[3, 4, 0, 0] } = .next t ∧ t.pc ≠ past2.pc :=
  ⟨_, rfl, by decide⟩
theorem witness_OnlyReadSuspends : (loaded [0x08, 0x01]).run = .running ∧ (loaded [0x08, 0x01]).pendingRead = none ∧
    ∃ t, step (loaded [0x08, 0x01]) = .next t ∧ t.pendingRead = some 1 := ⟨rfl, rfl, _, rfl, rfl⟩
/-- The waiting READ of a register that exists, and of an index of 4. -/
theorem witness_AnswerEndsReadWait : (let s := after (loaded [0x08, 0x03]);
      s.run = .running ∧ s.pendingRead = some 3 ∧ s.input.length = s.inPos ∧ (3 : Byte).toNat < 4) ∧
    (let s := after (loaded [0x08, 0x04]);
      s.run = .running ∧ s.pendingRead = some 4 ∧ s.input.length = s.inPos ∧ 4 ≤ (4 : Byte).toNat) := by decide
theorem witness_InputDeliveryTimeIrrelevant : ∃ t, step (loaded [0x08, 0x03] [5]) = .next t ∧ t.blocked = false :=
  ⟨_, rfl, by decide⟩
/-- A source whose every byte is 42: the first READ of a run takes it at once. -/
theorem witness_KthReadTakesKthByte : (loaded [0x08, 0x02]).Reaches (fun _ => some 42) 0 (loaded [0x08, 0x02]) ∧
    ∃ u, step ((loaded [0x08, 0x02]).supply fun _ => some 42) = .next u ∧ u.inPos = 1 ∧ u.x = #v[0, 0, 42, 0] :=
  ⟨rfl, _, rfl, rfl, by decide⟩
/-- A source with no byte: the READ waits. -/
theorem witness_KthReadTakesKthByte_waits : (loaded [0x08, 0x02]).Reaches (fun _ => none) 0 (loaded [0x08, 0x02]) ∧
    ∃ u, step ((loaded [0x08, 0x02]).supply fun _ => none) = .next u ∧ u.blocked = true := ⟨rfl, _, rfl, by decide⟩
theorem witness_RunDependsOnStreamOnly : past2.inPos ≤ past2.input.length := by decide
theorem witness_RunEndsInExactlyOneWay : State.reset.run = .running := by decide

/-- READ 0; JMP 0 between two instructions, no more input consumed than delivered. -/
def ReadLoop (s : State) : Prop :=
  s.cfg = image [0x08, 0x00, 0x0A, 0x00] ∧ s.run = .running ∧ s.pendingRead = none ∧ (s.pc = 0 ∨ s.pc = 2) ∧
    s.inPos ≤ s.input.length

theorem readLoop_step {s : State} (h : ReadLoop s) (hi : s.inPos < s.input.length) : ∃ u, step s = .next u ∧ ReadLoop u := by
  obtain ⟨cfg, x, pc, ir, mem, cstack, run, diag, out, inPos, intAcks, input, pendingRead⟩ := s
  obtain ⟨rfl, rfl, rfl, rfl | rfl, _⟩ := h
  · obtain ⟨v, _, e⟩ := (execRead_cases 0
      ⟨image [0x08, 0x00, 0x0A, 0x00], x, 2, 0x08, mem, cstack, .running, diag, out, inPos, intAcks, input, none⟩).resolve_right
      fun g => absurd hi (Nat.not_lt.mpr g.1)
    rw [State.checkReg_of_lt _ _ (by decide), State.writeReg_of_lt _ _ (by decide)] at e
    exact ⟨_, (show step _ = execRead 0 _ from rfl).trans e, rfl, rfl, rfl, .inr rfl, hi⟩
  · exact ⟨_, rfl, rfl, rfl, rfl, .inl rfl, Nat.le_of_lt hi⟩

/-- Way (c) of R110 for an endless stream (R151): reading it in a loop goes on forever, never stuck. -/
theorem witness_endless_stream_runs_forever (src : InputSource) (h : ∀ k, src k ≠ none) :
    (loaded [0x08, 0x00, 0x0A, 0x00]).RunsForever src := by
  have run : ∀ n s, ReadLoop s → ∃ t, s.Reaches src n t ∧ t.run = .running := by
    intro n
    induction n with
    | zero => exact fun s hs => ⟨s, rfl, hs.2.1⟩
    | succ n ih =>
      intro s hs
      obtain ⟨u, hu, hl⟩ : ∃ u, step (s.supply src) = .next u ∧ ReadLoop u := by
        rcases s.supply_cases src with ⟨b, _, hl, _, e⟩ | ⟨e, g⟩ <;> rw [e]
        · exact readLoop_step ⟨hs.1, hs.2.1, hs.2.2.1, hs.2.2.2.1, by have := hs.2.2.2.2; simp; omega⟩
            (by have := hs.2.2.2.2; simp; omega)
        · exact readLoop_step hs (Nat.not_le.mp fun hle => h _ (g hs.2.1 hle))
      obtain ⟨t, ht, hr⟩ := ih u hl
      exact ⟨t, (State.reaches_succ hu).mpr ht, hr⟩
  intro n
  obtain ⟨t, ht, hr⟩ := run n (loaded [0x08, 0x00, 0x0A, 0x00]) ⟨rfl, rfl, rfl, .inl rfl, Nat.zero_le _⟩
  exact ⟨t, ht, hr, fun hs => h _ hs.2.2⟩
/-- The invariant holds after reset; with a full memory cell, an entry on a bounded stack and a waiting READ too. -/
theorem witness_invariant_at_reset : State.reset.Inv where
  mem := rfl
  stack := by rintro _ ⟨⟩
  input := by decide
  log := by rintro _ ⟨⟩
  pending := by rintro _ ⟨⟩

/-- A state with every part of the invariant in play. -/
def busy : State :=
  { State.resetWith { image [0x08, 0x02] with cstackCap := some 1 } [5] with
    pc := 2, ir := 0x08, mem := [(255, 1)], cstack := [40], inPos := 1, pendingRead := some 2
    diag := [.callStackUnderflow 0] }

theorem witness_StepKeepsInvariant : busy.Inv ∧ ∃ t, step busy = .next t :=
  ⟨{ mem := rfl
     stack := by rintro _ ⟨⟩; decide
     input := by decide
     log := by
       intro d hd
       rcases List.mem_singleton.mp hd with rfl
       rfl
     pending := by rintro _ ⟨⟩; exact ⟨rfl, rfl, rfl⟩ }, _, rfl⟩

/-- The invariant in a failed run. -/
theorem witness_StatusShowsFatalCode : ({ State.reset with run := .haltedError, diag := [.callStackOverflow 4] } : State).Inv where
  mem := rfl
  stack := by rintro _ ⟨⟩
  input := by decide
  log := ⟨[], .callStackOverflow 4, rfl, rfl, by intro _ h; cases h⟩
  pending := by rintro _ ⟨⟩

theorem witness_DumpListsNonZeroCells : busy.mem.wf = true := by decide
theorem witness_EqualMemoriesAreEqualData : Memory.wf [(0, 1), (255, 2)] = true ∧ Memory.wf (Memory.write [(255, 2)] 0 1) = true ∧
    (∀ a < 256, Memory.read [(0, 1), (255, 2)] a = Memory.read (Memory.write [(255, 2)] 0 1) a) :=
  ⟨rfl, rfl, fun _ _ => rfl⟩
theorem witness_CleanAssemblyDecodesWhole : OpcodeMap.default.wf = true ∧
    assemble OpcodeMap.default [['J', 'M', 'P', ' ', '7'], ['R', 'E', 'T']] = ([0x0A, 0x07, 0x0C], []) := by decide

end Sys2Proof.Tests
end

/-! ## What an execute phase and a step can do

The execute phase of each instruction, and a step, as a relation between a state and the next state. Every claim of
10_state.md about all steps is a case analysis over these two relations. -/

namespace Sys2Proof.Machine

/-! ### The execute phase -/

/-- LOAD and the ALU instructions replace the register they name by a function of its old value: the register operand and
that function (R121, R131). -/
def registerUpdate? : Instr → Option (Byte × (Byte → Byte))
  | .load reg val => some (reg, fun _ => val)
  | .add reg val => some (reg, fun old => aluAdd old val)
  | .sub reg val => some (reg, fun old => aluSub old val)
  | .and reg val => some (reg, fun old => aluAnd old val)
  | .or reg val => some (reg, fun old => aluOr old val)
  | .xor reg val => some (reg, fun old => aluXor old val)
  | .nop => none | .store _ _ => none | .read _ => none | .write _ => none | .jmp _ => none | .call _ => none
  | .ret => none | .beq _ => none | .bne _ => none | .int => none

/-- The execute phase of every instruction that updates a register: check the index, then write the new value. -/
theorem exec_of_registerUpdate {i : Instr} {reg : Byte} {f : Byte → Byte} (h : registerUpdate? i = some (reg, f))
    (s : State) :
    exec i s = .next ((s.checkReg i.mnemonic reg).writeReg reg (f (s.readReg reg))) := by
  cases i <;> cases h <;> rfl

theorem writtenReg?_of_registerUpdate {i : Instr} {reg : Byte} {f : Byte → Byte}
    (h : registerUpdate? i = some (reg, f)) : writtenReg? i = some reg := by
  cases i <;> cases h <;> rfl

/-- `Executes s i t`: the execute phase of `i` can take `s` to `t`, one constructor for each instruction and each way it
can go, with the guard of that way. -/
inductive Executes (s : State) : Instr → State → Prop
  | nop : Executes s .nop s
  | update {i : Instr} {reg : Byte} {f : Byte → Byte} (hi : registerUpdate? i = some (reg, f)) :
      Executes s i ((s.checkReg i.mnemonic reg).writeReg reg (f (s.readReg reg)))
  | store (reg addr : Byte) : Executes s (.store reg addr) ((s.checkReg .store reg).memWrite addr (s.readReg reg))
  | readTakes (reg v : Byte) (hv : s.input[s.inPos]? = some v) :
      Executes s (.read reg)
        ((({ s with inPos := s.inPos + 1, pendingRead := none } : State).checkReg .read reg).writeReg reg v)
  | readWaits (reg : Byte) (hl : s.input.length ≤ s.inPos) : Executes s (.read reg) (s.await reg)
  | write (reg : Byte) : Executes s (.write reg) ((s.checkReg .write reg).outEmit (s.readReg reg))
  | jmp (addr : Byte) : Executes s (.jmp addr) (s.setPc addr)
  | callPushes (addr : Byte) (hc : s.cstackFull = false) : Executes s (.call addr) ((s.push s.pc).setPc addr)
  | callOverflows (addr : Byte) (hc : s.cstackFull = true) :
      Executes s (.call addr) (s.raise (.callStackOverflow (s.origin .call)))
  | retPops (target : Byte) (rest : List Byte) (hs : s.cstack = target :: rest) :
      Executes s .ret ({ s with cstack := rest }.setPc target)
  | retUnderflows (hs : s.cstack = []) : Executes s .ret (s.report (.callStackUnderflow (s.origin .ret)))
  | beqTaken (addr : Byte) (hx : s.x[0] = s.x[1]) : Executes s (.beq addr) (s.setPc addr)
  | beqFalls (addr : Byte) (hx : s.x[0] ≠ s.x[1]) : Executes s (.beq addr) s
  | bneTaken (addr : Byte) (hx : s.x[0] ≠ s.x[1]) : Executes s (.bne addr) (s.setPc addr)
  | bneFalls (addr : Byte) (hx : s.x[0] = s.x[1]) : Executes s (.bne addr) s
  | int : Executes s .int s.ackInt

theorem execBeq_of_eq {s : State} (addr : Byte) (h : s.x[0] = s.x[1]) : execBeq addr s = .next (s.setPc addr) := by
  rw [execBeq, if_pos (s.branchEqual_iff.mpr h)]

theorem execBeq_of_ne {s : State} (addr : Byte) (h : s.x[0] ≠ s.x[1]) : execBeq addr s = .next s := by
  rw [execBeq, if_neg (mt s.branchEqual_iff.mp h)]

theorem execBne_of_eq {s : State} (addr : Byte) (h : s.x[0] = s.x[1]) : execBne addr s = .next s := by
  rw [execBne, if_pos (s.branchEqual_iff.mpr h)]

theorem execBne_of_ne {s : State} (addr : Byte) (h : s.x[0] ≠ s.x[1]) : execBne addr s = .next (s.setPc addr) := by
  rw [execBne, if_neg (mt s.branchEqual_iff.mp h)]

/-- Every execute phase answers a next state that the relation allows. -/
theorem exec_executes (i : Instr) (s : State) : ∃ t, exec i s = .next t ∧ Executes s i t := by
  cases i with
  | nop => exact ⟨_, rfl, .nop⟩
  | load | add | sub | and | or | xor => exact ⟨_, exec_of_registerUpdate rfl s, .update rfl⟩
  | store reg addr => exact ⟨_, rfl, .store reg addr⟩
  | read reg =>
    rcases execRead_cases reg s with ⟨v, hv, e⟩ | ⟨hl, e⟩
    · exact ⟨_, e, .readTakes reg v hv⟩
    · exact ⟨_, e, .readWaits reg hl⟩
  | write reg => exact ⟨_, rfl, .write reg⟩
  | jmp addr => exact ⟨_, rfl, .jmp addr⟩
  | call addr =>
    rcases execCall_cases addr s with ⟨hc, e⟩ | ⟨hc, e⟩
    · exact ⟨_, e, .callOverflows addr hc⟩
    · exact ⟨_, e, .callPushes addr hc⟩
  | ret =>
    rcases execRet_cases s with ⟨hs, e⟩ | ⟨target, rest, hs, e⟩
    · exact ⟨_, e, .retUnderflows hs⟩
    · exact ⟨_, e, .retPops target rest hs⟩
  | beq addr =>
    by_cases hx : s.x[0] = s.x[1]
    · exact ⟨_, execBeq_of_eq addr hx, .beqTaken addr hx⟩
    · exact ⟨_, execBeq_of_ne addr hx, .beqFalls addr hx⟩
  | bne addr =>
    by_cases hx : s.x[0] = s.x[1]
    · exact ⟨_, execBne_of_eq addr hx, .bneFalls addr hx⟩
    · exact ⟨_, execBne_of_ne addr hx, .bneTaken addr hx⟩
  | int => exact ⟨_, rfl, .int⟩

/-- A state that the relation allows is the answer of the execute phase. -/
theorem Executes.exec_eq {i : Instr} {s t : State} (h : Executes s i t) : exec i s = .next t := by
  cases h with
  | update hi => exact exec_of_registerUpdate hi s
  | readTakes reg v hv => simp [exec, execRead, State.inRead?_eq_some_iff.mpr ⟨hv, rfl⟩]
  | readWaits reg hl => simp [exec, execRead, State.inRead?_eq_none_iff.mpr hl]
  | callPushes addr hc | callOverflows addr hc => simp [exec, execCall, hc]
  | retPops _ _ hs | retUnderflows hs => simp [exec, execRet, hs]
  | beqTaken addr hx => exact execBeq_of_eq addr hx
  | beqFalls addr hx => exact execBeq_of_ne addr hx
  | bneTaken addr hx => exact execBne_of_ne addr hx
  | bneFalls addr hx => exact execBne_of_eq addr hx
  | nop | store | write | jmp | int => rfl

/-- The relation is the execute phase. -/
theorem exec_eq_next_iff {i : Instr} {s t : State} : exec i s = .next t ↔ Executes s i t := by
  refine ⟨fun h => ?_, Executes.exec_eq⟩
  obtain ⟨u, hu, he⟩ := exec_executes i s
  obtain rfl : u = t := by simpa [hu] using h
  exact he

/-! ### A step -/

/-- `Steps s t`: a step can take `s` to `t`, one constructor for each way a step can go (R101 to R106). -/
inductive Steps (s : State) : State → Prop
  | halted (hr : s.run ≠ .running) : Steps s s
  | waiting {reg : Byte} {t : State} (hr : s.run = .running) (hp : s.pendingRead = some reg)
      (he : Executes s (.read reg) t) : Steps s t
  | haltsNormally (hr : s.run = .running) (hp : s.pendingRead = none) (hb : s.codeRead? s.pc = none) :
      Steps s s.haltNormal
  | fetchFails {b : Byte} {operands : List Byte} {d : Diag} (hr : s.run = .running) (hp : s.pendingRead = none)
      (hb : s.codeRead? s.pc = some b) (hd : d.kind.fatal = true) : Steps s ((s.consume (b :: operands)).raise d)
  | executes {b : Byte} {tail : List Byte} {m : Mnemonic} {t : State} (hr : s.run = .running) (hp : s.pendingRead = none)
      (hw : s.codeBytes maxLength s.pc = b :: tail) (hb : s.codeRead? s.pc = some b)
      (hm : s.cfg.opcodeOf.mnemonicOf? b = some m) (ha : m.arity ≤ tail.length)
      (he : Executes (s.consume (b :: tail.take m.arity)) (Instr.ofOperands m (tail.getD 0 0) (tail.getD 1 0)) t) :
      Steps s t

theorem steps_of_step {s t : State} (h : step s = .next t) : Steps s t := by
  rcases step_cases s with ⟨hr, e⟩ | ⟨reg, hr, hp, e⟩ | ⟨u, hr, hp, hf, e⟩ | ⟨i, u, hr, hp, hf, e⟩ <;> rw [e] at h
  · cases h; exact .halted hr
  · exact .waiting hr hp (exec_eq_next_iff.mp h)
  · cases h
    rcases fetchDecode_cases s with ⟨hb, e⟩ | ⟨b, hb, _, e⟩ | ⟨b, tail, m, _, hb, _, _, e⟩ | ⟨_, _, _, _, _, _, _, e⟩ <;>
      cases hf.symm.trans e
    · exact .haltsNormally hr hp hb
    · exact .fetchFails hr hp hb rfl
    · exact .fetchFails hr hp hb rfl
  · rcases fetchDecode_cases s with ⟨_, e⟩ | ⟨_, _, _, e⟩ | ⟨_, _, _, _, _, _, _, e⟩ | ⟨b, tail, m, hw, hb, hm, ha, e⟩ <;>
      cases hf.symm.trans e
    exact .executes hr hp hw hb hm ha (exec_eq_next_iff.mp h)

end Sys2Proof.Machine

/-! ## The invariant is kept (R29, R31, R35, R150, R201, R202) -/

namespace Sys2Proof.Machine

/-! ### What each way of the execute phase leaves of the parts the invariant speaks of -/

/-- A register check leaves the log or appends one report, which is not fatal (R108, R202). -/
theorem State.checkReg_diag (s : State) (m : Mnemonic) (i : Byte) :
    (s.checkReg m i).diag = s.diag ∨ ∃ d : Diag, (s.checkReg m i).diag = s.diag ++ [d] ∧ d.kind.fatal = false := by
  unfold State.checkReg
  split
  · exact .inl rfl
  · exact .inr ⟨_, rfl, rfl⟩

theorem Executes.cfg_eq {s t : State} {i : Instr} (h : Executes s i t) : t.cfg = s.cfg := by
  cases h <;> simp

theorem Executes.input_eq {s t : State} {i : Instr} (h : Executes s i t) : t.input = s.input := by
  cases h <;> simp

/-- Data memory changes only by STORE (R29, R122). -/
theorem Executes.mem_cases {s t : State} {i : Instr} (h : Executes s i t) :
    t.mem = s.mem ∨ ∃ reg addr : Byte, i = .store reg addr ∧ t.mem = s.mem.write addr.toNat (s.readReg reg) := by
  cases h with
  | store reg addr => exact .inr ⟨reg, addr, rfl, by simp⟩
  | _ => exact .inl (by simp)

/-- The call stack is left, pushed on where it is not full, or popped (R30 to R32). -/
theorem Executes.cstack_cases {s t : State} {i : Instr} (h : Executes s i t) :
    t.cstack = s.cstack ∨ (s.cstackFull = false ∧ t.cstack = s.pc :: s.cstack) ∨ ∃ v, s.cstack = v :: t.cstack := by
  cases h with
  | callPushes addr hc => exact .inr (.inl ⟨hc, rfl⟩)
  | retPops target rest hs => exact .inr (.inr ⟨target, hs⟩)
  | _ => exact .inl (by simp)

/-- READ alone consumes input, one byte that was delivered (R35, R150). -/
theorem Executes.inPos_cases {s t : State} {i : Instr} (h : Executes s i t) :
    t.inPos = s.inPos ∨ (s.inPos < s.input.length ∧ t.inPos = s.inPos + 1) := by
  cases h with
  | readTakes reg v hv => exact .inr ⟨(List.getElem?_eq_some_iff.mp hv).1, by simp⟩
  | _ => exact .inl (by simp)

/-- An execute phase that goes on makes at most one report, which is not fatal; one that fails makes one that is
(R201, R202, R207). -/
theorem Executes.log_cases {s t : State} {i : Instr} (h : Executes s i t) :
    (t.run = s.run ∧ (t.diag = s.diag ∨ ∃ d : Diag, t.diag = s.diag ++ [d] ∧ d.kind.fatal = false)) ∨
    (t.run = .haltedError ∧ ∃ d : Diag, t.diag = s.diag ++ [d] ∧ d.kind.fatal = true) := by
  cases h with
  | update | store | readTakes | write => exact .inl ⟨by simp, by simpa using State.checkReg_diag _ _ _⟩
  | callOverflows addr => exact .inr ⟨rfl, _, rfl, rfl⟩
  | retUnderflows => exact .inl ⟨rfl, .inr ⟨_, rfl, rfl⟩⟩
  | _ => exact .inl ⟨rfl, .inl rfl⟩

/-- The mark of a waiting READ is left by every instruction but READ, which clears it or waits (R150). -/
theorem Executes.pendingRead_cases {s t : State} {i : Instr} (h : Executes s i t) :
    (t.pendingRead = s.pendingRead ∧ ∀ reg, i ≠ .read reg) ∨
    ∃ reg, i = .read reg ∧ (t.pendingRead = none ∨ t = s.await reg) := by
  cases h with
  | update hi => exact .inl ⟨by simp, by rintro reg rfl; cases hi⟩
  | readTakes reg v => exact .inr ⟨reg, rfl, .inl (by simp)⟩
  | readWaits reg => exact .inr ⟨reg, rfl, .inr rfl⟩
  | _ => exact .inl ⟨by simp, by rintro _ ⟨⟩⟩

/-! ### The parts of the invariant -/

theorem Executes.mem_wf {s t : State} {i : Instr} (h : Executes s i t) (hs : s.mem.wf = true) : t.mem.wf = true := by
  rcases h.mem_cases with e | ⟨_, addr, _, e⟩ <;> rw [e]
  · exact hs
  · exact Memory.write_wf _ addr _ hs

theorem Executes.stackWithinCap {s t : State} {i : Instr} (h : Executes s i t) (hs : s.stackWithinCap) :
    t.stackWithinCap := by
  intro cap hcap
  rw [h.cfg_eq] at hcap
  have hle : s.cstack.length ≤ cap := hs cap hcap
  rcases h.cstack_cases with e | ⟨hc, e⟩ | ⟨v, e⟩
  · rwa [e]
  · have hne : s.cstack.length ≠ cap := fun hlen => by
      simp [State.cstackFull_eq_true_iff.mpr ⟨cap, hcap, hlen⟩] at hc
    rw [e, List.length_cons]
    omega
  · rw [e, List.length_cons] at hle
    omega

theorem Executes.inPos_le {s t : State} {i : Instr} (h : Executes s i t) (hs : s.inPos ≤ s.input.length) :
    t.inPos ≤ t.input.length := by
  rw [h.input_eq]
  rcases h.inPos_cases with e | ⟨hlt, e⟩ <;> omega

/-- In a run that has not failed the log's part of the invariant says that no entry is fatal. -/
theorem State.logMatchesRun_iff {s : State} (h : s.run ≠ .haltedError) :
    s.logMatchesRun ↔ ∀ d ∈ s.diag, d.kind.fatal = false := by
  unfold State.logMatchesRun
  cases hr : s.run with
  | haltedError => exact absurd hr h
  | running | haltedNormal => rfl

/-- A fatal entry after entries that are not fatal is the log of a failed run. -/
theorem State.logMatchesRun_of_fatal {t : State} {log : List Diag} {d : Diag} (hlog : ∀ d ∈ log, d.kind.fatal = false)
    (hr : t.run = .haltedError) (ht : t.diag = log ++ [d]) (hd : d.kind.fatal = true) : t.logMatchesRun := by
  unfold State.logMatchesRun
  rw [hr]
  exact ⟨log, d, ht, hd, hlog⟩

theorem Executes.logMatchesRun {s t : State} {i : Instr} (h : Executes s i t) (hr : s.run = .running)
    (hs : s.logMatchesRun) : t.logMatchesRun := by
  have hlog := (State.logMatchesRun_iff (by simp [hr])).mp hs
  rcases h.log_cases with ⟨hr', hdiag⟩ | ⟨hr', d, e, hd⟩
  · refine (State.logMatchesRun_iff (by simp [hr', hr])).mpr ?_
    rcases hdiag with e | ⟨d, e, hd⟩ <;> rw [e]
    · exact hlog
    · simpa [or_imp, forall_and, hd] using hlog
  · exact State.logMatchesRun_of_fatal hlog hr' e hd

/-- Where READ is executed, `ir` holds its opcode and its two bytes stand before `pc` (R106). -/
def State.ReadFetched (s : State) (i : Instr) : Prop :=
  ∀ reg, i = .read reg → s.ir = s.cfg.opcodeOf.read ∧ s.codeBytes 2 (s.pc - 2) = [s.cfg.opcodeOf.read, reg]

theorem Executes.pendingMatchesCode {s t : State} {i : Instr} (h : Executes s i t) (hr : s.run = .running)
    (hf : s.ReadFetched i) (hp : ∀ reg, s.pendingRead = some reg → i = .read reg) : t.pendingMatchesCode := by
  intro reg ht
  rcases h.pendingRead_cases with ⟨e, hi⟩ | ⟨reg', hi, e | rfl⟩
  · exact absurd (hp reg (e.symm.trans ht)) (hi reg)
  · cases e.symm.trans ht
  · obtain rfl : reg' = reg := by simpa using ht
    obtain ⟨hir, hcode⟩ := hf reg' hi
    exact ⟨hr, hir, (State.codeBytes_congr rfl 2 _).trans hcode⟩

/-- An execute phase keeps the invariant, given that a READ has been fetched and no other instruction runs while a READ
waits. -/
theorem Executes.inv {s t : State} {i : Instr} (h : Executes s i t) (hs : s.Inv) (hr : s.run = .running)
    (hf : s.ReadFetched i) (hp : ∀ reg, s.pendingRead = some reg → i = .read reg) : t.Inv where
  mem := h.mem_wf hs.mem
  stack := h.stackWithinCap hs.stack
  input := h.inPos_le hs.input
  log := h.logMatchesRun hr hs.log
  pending := h.pendingMatchesCode hr hf hp

/-! ### A step -/

/-- A READ that a step fetches has its opcode in `ir` and its two bytes before `pc` (R102, R104, R106). -/
theorem State.readFetched_consume {s : State} {b : Byte} {tail : List Byte} {m : Mnemonic}
    (hw : s.codeBytes maxLength s.pc = b :: tail) (hm : s.cfg.opcodeOf.mnemonicOf? b = some m)
    (ha : m.arity ≤ tail.length) :
    (s.consume (b :: tail.take m.arity)).ReadFetched (Instr.ofOperands m (tail.getD 0 0) (tail.getD 1 0)) := by
  intro reg hi
  obtain rfl : m = .read := (Instr.mnemonic_ofOperands m _ _).symm.trans (congrArg Instr.mnemonic hi)
  obtain rfl : s.cfg.opcodeOf.read = b := OpcodeMap.of_mnemonicOf? hm
  obtain ⟨op, rest, rfl⟩ : ∃ op rest, tail = op :: rest := List.exists_cons_of_length_pos ha
  obtain rfl : op = reg := by simpa [Instr.ofOperands] using hi
  have hpc : s.pc + 2 - 2 = s.pc := BitVec.add_sub_cancel s.pc 2
  refine ⟨rfl, ?_⟩
  calc (s.consume _).codeBytes 2 (s.pc + 2 - 2)
      = s.codeBytes 2 s.pc := by rw [hpc]; exact State.codeBytes_congr rfl 2 _
    _ = (s.codeBytes maxLength s.pc).take 2 := (s.codeBytes_take maxLength 2 s.pc (by decide)).symm
    _ = [s.cfg.opcodeOf.read, op] := by rw [hw]; rfl

theorem State.pendingMatchesCode_of_none {s : State} (hp : s.pendingRead = none) : s.pendingMatchesCode := by
  intro reg h
  cases hp.symm.trans h

/-- The fetches alone keep the invariant, as no READ waits while they are made. -/
theorem State.inv_consume {s : State} (hs : s.Inv) (hp : s.pendingRead = none) (bytes : List Byte) :
    (s.consume bytes).Inv :=
  { hs with pending := State.pendingMatchesCode_of_none hp }

theorem State.inv_haltNormal {s : State} (hs : s.Inv) (hr : s.run = .running) (hp : s.pendingRead = none) :
    s.haltNormal.Inv where
  mem := hs.mem
  stack := hs.stack
  input := hs.input
  log := (State.logMatchesRun_iff (by simp)).mpr ((State.logMatchesRun_iff (s := s) (by simp [hr])).mp hs.log)
  pending := State.pendingMatchesCode_of_none hp

theorem State.inv_raise {s : State} (hs : s.Inv) (hr : s.run = .running) (hp : s.pendingRead = none) {d : Diag}
    (hd : d.kind.fatal = true) : (s.raise d).Inv where
  mem := hs.mem
  stack := hs.stack
  input := hs.input
  log := State.logMatchesRun_of_fatal ((State.logMatchesRun_iff (by simp [hr])).mp hs.log) rfl rfl hd
  pending := State.pendingMatchesCode_of_none hp

/-- Settles O55: the invariant is kept along each way a step can go, the ways through an execute phase by
`Executes.inv`. -/
theorem stepKeepsInvariant : Obligations.StepKeepsInvariant := by
  intro s t hs h
  cases steps_of_step h with
  | halted => exact hs
  | waiting hr hp he =>
    refine he.inv hs hr ?_ ?_ <;> intro reg h
    · cases h
      exact (hs.pending _ hp).2
    · cases hp.symm.trans h
      rfl
  | haltsNormally hr hp => exact State.inv_haltNormal hs hr hp
  | fetchFails hr hp _ hd => exact State.inv_raise (State.inv_consume hs hp _) hr hp hd
  | executes hr hp hw _ hm ha he =>
    refine he.inv (State.inv_consume hs hp _) hr (State.readFetched_consume hw hm ha) fun reg h => ?_
    cases hp.symm.trans h

end Sys2Proof.Machine

/-! ## The other claims about every step and every execute phase (R21 to R36) -/

namespace Sys2Proof.Machine

/-! ### The call stack, the records, `ir` and `pc` (R23, R25, R32, R35) -/

/-- An execute phase pushes once, pops once or leaves the stack (R32). -/
theorem Executes.one_stack_operation {s t : State} {i : Instr} (h : Executes s i t) :
    t.cstack = s.cstack ∨ (∃ v, t.cstack = v :: s.cstack) ∨ ∃ v, s.cstack = v :: t.cstack :=
  h.cstack_cases.imp_right (Or.imp_left fun ⟨_, e⟩ => ⟨_, e⟩)

/-- Settles O41: a step executes at most one instruction, and without one it leaves the stack. -/
theorem oneStackOperationPerStep : Obligations.OneStackOperationPerStep := by
  intro s t h
  cases steps_of_step h with
  | waiting _ _ he => exact he.one_stack_operation
  | executes _ _ _ _ _ _ he => exact he.one_stack_operation
  | _ => exact .inl rfl

/-- The records of `t` are those of `s`, each with at most one entry more (R35). -/
def State.RecordsGrow (s t : State) : Prop :=
  (t.out = s.out ∨ ∃ v, t.out = s.out ++ [v]) ∧ (t.inPos = s.inPos ∨ t.inPos = s.inPos + 1) ∧
    (t.intAcks = s.intAcks ∨ t.intAcks = s.intAcks + 1) ∧ (t.diag = s.diag ∨ ∃ d, t.diag = s.diag ++ [d])

theorem Executes.out_cases {s t : State} {i : Instr} (h : Executes s i t) :
    t.out = s.out ∨ ∃ v, t.out = s.out ++ [v] := by
  cases h with
  | write reg => exact .inr ⟨s.readReg reg, by simp⟩
  | _ => exact .inl (by simp)

theorem Executes.intAcks_cases {s t : State} {i : Instr} (h : Executes s i t) :
    t.intAcks = s.intAcks ∨ t.intAcks = s.intAcks + 1 := by
  cases h with
  | int => exact .inr rfl
  | _ => exact .inl (by simp)

theorem Executes.diag_cases {s t : State} {i : Instr} (h : Executes s i t) :
    t.diag = s.diag ∨ ∃ d, t.diag = s.diag ++ [d] := by
  rcases h.log_cases with ⟨_, e | ⟨d, e, _⟩⟩ | ⟨_, d, e, _⟩
  · exact .inl e
  · exact .inr ⟨d, e⟩
  · exact .inr ⟨d, e⟩

theorem Executes.recordsGrow {s t : State} {i : Instr} (h : Executes s i t) : s.RecordsGrow t :=
  ⟨h.out_cases, h.inPos_cases.imp_right And.right, h.intAcks_cases, h.diag_cases⟩

/-- Settles O43: an execute phase adds to each record at most once, and a step without one adds at most a diagnostic. -/
theorem recordsOnlyGrow : Obligations.RecordsOnlyGrow := by
  intro s t h
  cases steps_of_step h with
  | waiting _ _ he => exact he.recordsGrow
  | executes _ _ _ _ _ _ he => exact he.recordsGrow
  | fetchFails => exact ⟨.inl rfl, .inl rfl, .inl rfl, .inr ⟨_, rfl⟩⟩
  | _ => exact ⟨.inl rfl, .inl rfl, .inl rfl, .inl rfl⟩

theorem Executes.ir_eq {s t : State} {i : Instr} (h : Executes s i t) : t.ir = s.ir := by
  cases h <;> simp

/-- A step of a Running engine in which no READ waits loads `ir` with the byte at `pc`, or ends the run normally (R101,
R102). -/
theorem Steps.ir_eq_of_fetch {s t : State} (h : Steps s t) (hr : s.run = .running) (hp : s.pendingRead = none) :
    s.cfg.prog[s.pc.toNat]? = some t.ir ∨ t = s.haltNormal := by
  cases h with
  | halted hr' => exact absurd hr hr'
  | waiting _ hp' => cases hp.symm.trans hp'
  | haltsNormally => exact .inr rfl
  | fetchFails _ _ hb => exact .inl hb
  | executes _ _ _ hb _ _ he => exact .inl (by rw [he.ir_eq]; exact hb)

/-- Settles O46: only JMP, CALL, RET on a non-empty stack and a taken branch set `pc`. -/
theorem pcSetOnlyByControlFlow : Obligations.PcSetOnlyByControlFlow := by
  intro i s t h hne
  cases exec_eq_next_iff.mp h with
  | jmp => exact .inl rfl
  | callPushes => exact .inr (.inl rfl)
  | retPops target rest hs => exact .inr (.inr (.inl ⟨rfl, rest, hs⟩))
  | beqTaken addr hx => exact .inr (.inr (.inr (.inl ⟨rfl, hx⟩)))
  | bneTaken addr hx => exact .inr (.inr (.inr (.inr ⟨rfl, hx⟩)))
  | _ => exact absurd (by simp) hne

/-! ### The parts no execute phase looks at: `ir`, data memory and, RET and a bounded CALL apart, the call stack
(R25, R33, R51) -/

/-- The state with `ir`, data memory and the call stack replaced. -/
def State.withUnread (s : State) (b : Byte) (m : Memory) (c : List Byte) : State :=
  { s with ir := b, mem := m, cstack := c }

section WithUnread
variable (s : State) (b : Byte) (m : Memory) (c : List Byte)

theorem State.checkReg_withUnread (n : Mnemonic) (i : Byte) :
    (s.withUnread b m c).checkReg n i = (s.checkReg n i).withUnread b m c := by
  unfold State.checkReg
  split <;> rfl

theorem State.writeReg_withUnread (i v : Byte) :
    (s.withUnread b m c).writeReg i v = (s.writeReg i v).withUnread b m c := by
  unfold State.writeReg
  split <;> rfl

variable {s c}

/-- Whether a CALL overflows depends on the stack only where it is bounded (R31). -/
theorem State.cstackFull_withUnread (hc : c = s.cstack ∨ s.cfg.cstackCap = none) :
    (s.withUnread b m c).cstackFull = s.cstackFull := by
  rcases hc with rfl | hcap
  · rfl
  · simp [State.cstackFull, State.withUnread, hcap]

/-- With other contents of `ir`, data memory and the call stack an instruction does the same, and it brings memory and
stack to the same contents where they held the same before. The stack must be the same for RET and, with a bounded
stack, for every instruction. -/
theorem Executes.withUnread {t : State} {i : Instr} (h : Executes s i t)
    (hc : c = s.cstack ∨ (i ≠ .ret ∧ s.cfg.cstackCap = none)) :
    ∃ m' c', Executes (s.withUnread b m c) i (t.withUnread b m' c') ∧ (m = s.mem → m' = t.mem) ∧
      (c = s.cstack → c' = t.cstack) := by
  have hfull := State.cstackFull_withUnread b m (hc.imp_right And.right)
  cases h with
  | nop => exact ⟨m, c, .nop, id, id⟩
  | @update i reg f hi =>
    refine ⟨m, c, ?_, by simp, by simp⟩
    rw [← State.writeReg_withUnread, ← State.checkReg_withUnread]
    exact .update hi
  | store reg addr =>
    refine ⟨m.write addr.toNat (s.readReg reg), c, ?_, by rintro rfl; simp, by simp⟩
    have := Executes.store (s := s.withUnread b m c) reg addr
    rwa [State.checkReg_withUnread] at this
  | readTakes reg v hv =>
    refine ⟨m, c, ?_, by simp, by simp⟩
    rw [← State.writeReg_withUnread, ← State.checkReg_withUnread]
    exact .readTakes reg v hv
  | readWaits reg hl => exact ⟨m, c, .readWaits reg hl, id, id⟩
  | write reg =>
    refine ⟨m, c, ?_, by simp, by simp⟩
    have := Executes.write (s := s.withUnread b m c) reg
    rwa [State.checkReg_withUnread] at this
  | jmp addr => exact ⟨m, c, .jmp addr, id, id⟩
  | callPushes addr hf => exact ⟨m, s.pc :: c, .callPushes addr (hfull.trans hf), id, by rintro rfl; rfl⟩
  | callOverflows addr hf => exact ⟨m, c, .callOverflows addr (hfull.trans hf), id, id⟩
  | retPops target rest hs =>
    obtain rfl : c = s.cstack := hc.resolve_right fun h => h.1 rfl
    exact ⟨m, rest, .retPops target rest hs, id, fun _ => rfl⟩
  | retUnderflows hs =>
    obtain rfl : c = s.cstack := hc.resolve_right fun h => h.1 rfl
    exact ⟨m, s.cstack, .retUnderflows hs, id, id⟩
  | beqTaken addr hx => exact ⟨m, c, .beqTaken addr hx, id, id⟩
  | beqFalls addr hx => exact ⟨m, c, .beqFalls addr hx, id, id⟩
  | bneTaken addr hx => exact ⟨m, c, .bneTaken addr hx, id, id⟩
  | bneFalls addr hx => exact ⟨m, c, .bneFalls addr hx, id, id⟩
  | int => exact ⟨m, c, .int, id, id⟩

end WithUnread

/-- No execute phase reads `ir`: with another byte there it does the same and leaves that byte. -/
theorem exec_with_ir (i : Instr) (s : State) (b : Byte) :
    exec i { s with ir := b } = mapNext (fun t => { t with ir := b }) (exec i s) := by
  obtain ⟨t, e, h⟩ := exec_executes i s
  obtain ⟨m, c, h', hm, hc⟩ := h.withUnread b s.mem (.inl rfl)
  obtain rfl := hm rfl
  obtain rfl := hc rfl
  rw [e]
  exact h'.exec_eq

/-- Settles O45: the fetch loads `ir` with the byte at `pc`, and the execute phase neither writes nor reads it. -/
theorem irHoldsFetchedOpcode : Obligations.IrHoldsFetchedOpcode := by
  refine ⟨fun s t h => ?_, fun s t hr hp h ht => ?_, fun i s t h => (exec_eq_next_iff.mp h).ir_eq, exec_with_ir⟩
  · cases steps_of_step h with
    | halted | haltsNormally => exact .inl rfl
    | waiting _ _ he => exact .inl he.ir_eq
    | fetchFails _ _ hb => exact .inr hb
    | executes _ _ _ hb _ _ he => exact .inr (by rw [he.ir_eq]; exact hb)
  · rcases (steps_of_step h).ir_eq_of_fetch hr hp with e | rfl
    · exact e
    · exact absurd rfl ht

/-- No execute phase reads data memory. -/
theorem exec_withoutMem (i : Instr) (s : State) :
    mapNext State.withoutMem (exec i s.withoutMem) = mapNext State.withoutMem (exec i s) := by
  obtain ⟨t, e, h⟩ := exec_executes i s
  obtain ⟨m, c, h', -, hc⟩ := h.withUnread s.ir [] (.inl rfl)
  obtain rfl := hc rfl
  have e' : exec i s.withoutMem = .next (t.withUnread s.ir m t.cstack) := h'.exec_eq
  rw [e, e', ← h.ir_eq]
  rfl

/-- The same end of the phases before execute with every state in it changed by g. -/
def Fetched.map (g : State → State) : Fetched → Fetched
  | .run i s => .run i (g s)
  | .ended s => .ended (g s)

/-- The phases before execute neither read nor write data memory. -/
theorem fetchDecode_withoutMem (s : State) : fetchDecode s.withoutMem = (fetchDecode s).map State.withoutMem := by
  have hw : s.withoutMem.codeBytes maxLength s.withoutMem.pc = s.codeBytes maxLength s.pc := State.codeBytes_congr rfl _ _
  have hom : s.withoutMem.cfg.opcodeOf = s.cfg.opcodeOf := rfl
  simp only [fetchDecode, hw, hom]
  rcases decode s.cfg.opcodeOf (s.codeBytes maxLength s.pc) with (_ | _ | _) | _ <;> rfl

/-- No step reads data memory. -/
theorem step_withoutMem (s : State) :
    mapNext State.withoutMem (step s.withoutMem) = mapNext State.withoutMem (step s) := by
  rcases step_cases s with ⟨hr, e⟩ | ⟨reg, hr, hp, e⟩ | ⟨t, hr, hp, hf, e⟩ | ⟨i, t, hr, hp, hf, e⟩ <;> rw [e]
  · rw [step_of_halted (s := s.withoutMem) hr]
    rfl
  · rw [step_of_waiting (s := s.withoutMem) hr hp]
    exact exec_withoutMem (.read reg) s
  · have hf' : fetchDecode s.withoutMem = .ended t.withoutMem := by rw [fetchDecode_withoutMem, hf]; rfl
    rw [step_of_ended (s := s.withoutMem) hr hp hf']
    rfl
  · have hf' : fetchDecode s.withoutMem = .run i t.withoutMem := by rw [fetchDecode_withoutMem, hf]; rfl
    rw [step_of_run (s := s.withoutMem) hr hp hf']
    exact exec_withoutMem i t

/-- Settles O37: STORE alone writes data memory, and steps from states that differ in it only agree on all else. -/
theorem dataMemoryWriteOnly : Obligations.DataMemoryWriteOnly := by
  refine ⟨fun i s t h hi => ?_, fun s m => ?_⟩
  · rcases (exec_eq_next_iff.mp h).mem_cases with e | ⟨reg, addr, hstore, _⟩
    · exact e
    · exact absurd hstore (hi reg addr)
  · exact (step_withoutMem { s with mem := m }).symm.trans (step_withoutMem s)

/-- Settles O38: with an unbounded stack the one instruction whose way depends on the stack is RET. -/
theorem onlyRetReadsStack : Obligations.OnlyRetReadsStack := by
  intro i s stack hi hcap
  obtain ⟨t, e, h⟩ := exec_executes i s
  obtain ⟨m, c, h', hm, -⟩ := h.withUnread s.ir s.mem (c := stack) (.inr ⟨hi, hcap⟩)
  obtain rfl := hm rfl
  have e' : exec i { s with cstack := stack } = .next (t.withUnread s.ir t.mem c) := h'.exec_eq
  rw [e, e', ← h.ir_eq]
  rfl

/-! ### Registers (R21) -/

section WithReg
variable {s : State} {i : Byte} {k : Fin 4}

theorem State.checkReg_withReg (s : State) (m : Mnemonic) (i : Byte) (k : Fin 4) (w : Byte) :
    (s.withReg k w).checkReg m i = (s.checkReg m i).withReg k w := by
  unfold State.checkReg
  split <;> rfl

/-- Registers other than the replaced one read as before. -/
theorem State.readReg_withReg_other (w : Byte) (h : i.toNat ≠ k.val) : (s.withReg k w).readReg i = s.readReg i := by
  unfold State.readReg
  split
  · exact Vector.getElem_set_ne k.isLt ‹_› (Ne.symm h)
  · rfl

/-- A write reaches no register but the named one, whatever the others hold. -/
theorem State.writeReg_withReg_other (v w : Byte) (h : i.toNat ≠ k.val) :
    (s.withReg k w).writeReg i v = (s.writeReg i v).withReg k w := by
  unfold State.writeReg
  split
  · exact congrArg (fun x => { s with x := x }) (Vector.set_comm _ _ (Ne.symm h))
  · rfl

/-- Checking and writing a register hides what it held. -/
theorem State.checkReg_writeReg_withReg_same (s : State) (m : Mnemonic) (v w : Byte) (h : i.toNat = k.val) :
    ((s.withReg k w).checkReg m i).writeReg i v = (s.checkReg m i).writeReg i v := by
  have hlt : i.toNat < 4 := h ▸ k.isLt
  simp [State.checkReg_of_lt _ _ hlt, State.writeReg_of_lt _ _ hlt, State.withReg, h]

/-- What BEQ and BNE test does not involve a register from `x[2]` on (R165). -/
theorem State.withReg_branch_iff (w : Byte) (h : 1 < k.val) :
    (s.withReg k w).x[0] = (s.withReg k w).x[1] ↔ s.x[0] = s.x[1] := by
  have h0 : (s.withReg k w).x[0] = s.x[0] := Vector.getElem_set_ne k.isLt _ (by omega)
  have h1 : (s.withReg k w).x[1] = s.x[1] := Vector.getElem_set_ne k.isLt _ (by omega)
  rw [h0, h1]

/-- An instruction that neither reads nor writes register k does the same whatever register k holds. -/
theorem Executes.withReg {t : State} {i : Instr} (h : Executes s i t) (w : Byte) (hread : readsReg k i = false)
    (hwritten : ∀ reg, writtenReg? i = some reg → reg.toNat ≠ k.val) :
    Executes (s.withReg k w) i (t.withReg k w) := by
  cases h with
  | nop => exact .nop
  | @update i reg f hi =>
    have hne := hwritten reg (writtenReg?_of_registerUpdate hi)
    rw [← State.writeReg_withReg_other _ w hne, ← State.checkReg_withReg, ← State.readReg_withReg_other w hne]
    exact .update hi
  | store reg addr =>
    have := Executes.store (s := s.withReg k w) reg addr
    rwa [State.checkReg_withReg, State.readReg_withReg_other _ (by simpa [readsReg] using hread)] at this
  | readTakes reg v hv =>
    rw [← State.writeReg_withReg_other _ w (hwritten reg rfl), ← State.checkReg_withReg]
    exact .readTakes reg v hv
  | readWaits reg hl => exact .readWaits reg hl
  | write reg =>
    have := Executes.write (s := s.withReg k w) reg
    rwa [State.checkReg_withReg, State.readReg_withReg_other _ (by simpa [readsReg] using hread)] at this
  | jmp addr => exact .jmp addr
  | callPushes addr hf => exact .callPushes addr hf
  | callOverflows addr hf => exact .callOverflows addr hf
  | retPops target rest hs => exact .retPops target rest hs
  | retUnderflows hs => exact .retUnderflows hs
  | beqTaken addr hx => exact .beqTaken addr ((State.withReg_branch_iff w (by simpa [readsReg] using hread)).mpr hx)
  | beqFalls addr hx => exact .beqFalls addr (mt (State.withReg_branch_iff w (by simpa [readsReg] using hread)).mp hx)
  | bneTaken addr hx => exact .bneTaken addr (mt (State.withReg_branch_iff w (by simpa [readsReg] using hread)).mp hx)
  | bneFalls addr hx => exact .bneFalls addr ((State.withReg_branch_iff w (by simpa [readsReg] using hread)).mpr hx)
  | int => exact .int

end WithReg

/-- An execute phase changes no register but the one it is said to write (R21). -/
theorem Executes.x_eq {s t : State} {i : Instr} (h : Executes s i t) (j : Fin 4)
    (hj : ∀ reg, writtenReg? i = some reg → j.val ≠ reg.toNat) : t.x[j] = s.x[j] := by
  cases h with
  | @update i reg f hi =>
    rw [State.writeReg_x_other _ _ _ j (hj reg (writtenReg?_of_registerUpdate hi)), State.checkReg_x]
  | readTakes reg v => rw [State.writeReg_x_other _ _ _ j (hj reg rfl), State.checkReg_x]
  | _ => simp

/-- LOAD does not depend on the register it writes. -/
theorem exec_load_withReg_same (s : State) {reg : Byte} {k : Fin 4} (h : reg.toNat = k.val) (val w : Byte) :
    exec (.load reg val) (s.withReg k w) = exec (.load reg val) s :=
  congrArg Host.Outcome.next (State.checkReg_writeReg_withReg_same s .load val w h)

/-- READ with its byte delivered does not depend on the register it writes. -/
theorem exec_read_withReg_same {s : State} {reg : Byte} {k : Fin 4} (h : reg.toNat = k.val) (w : Byte)
    (hl : s.inPos < s.input.length) : exec (.read reg) (s.withReg k w) = exec (.read reg) s := by
  have hv : s.input[s.inPos]? = some s.input[s.inPos] := List.getElem?_eq_getElem hl
  rw [(Executes.readTakes (s := s) reg _ hv).exec_eq, (Executes.readTakes (s := s.withReg k w) reg _ hv).exec_eq]
  exact congrArg Host.Outcome.next
    (State.checkReg_writeReg_withReg_same { s with inPos := s.inPos + 1, pendingRead := none } .read _ w h)

/-- Settles O36: a register changes only where it is written, and replacing one that is neither read nor written commutes
with the execute phase. -/
theorem registerReadersAndWriters : Obligations.RegisterReadersAndWriters := by
  refine ⟨fun i s t j h hne => ?_, fun i s k v hread hwritten => ?_, fun s k v reg val hk =>
    ⟨exec_load_withReg_same s hk val v, exec_read_withReg_same hk v⟩⟩
  · by_contra hnone
    exact hne ((exec_eq_next_iff.mp h).x_eq j fun reg hreg hj => hnone ⟨reg, hreg, hj.symm⟩)
  · obtain ⟨t, e, h⟩ := exec_executes i s
    rw [e]
    exact (h.withReg v hread hwritten).exec_eq

/-! ## Halts, reset, dump and data memory (R28, R29, R34, R36) -/

/-- Settles O13. -/
theorem haltedStatesAbsorb : Obligations.HaltedStatesAbsorb := fun _ h => step_of_halted h

/-- Settles O53: every clause is a field of the state that reset builds. -/
theorem resetZeroesState : Obligations.ResetZeroesState := by
  intro cfg input s
  have hx : ∀ j : Fin 4, (#v[0, 0, 0, 0] : Vector Byte 4)[j] = 0 := by decide
  exact ⟨hx, rfl, rfl, Memory.read_nil, rfl, rfl, rfl, rfl, rfl, rfl, rfl, rfl⟩

/-- The invariant holds after reset with any parameters and input. -/
theorem State.inv_resetWith (cfg : Config) (input : List Byte) : (State.resetWith cfg input).Inv where
  mem := Memory.reset_wf
  stack := fun _ _ => Nat.zero_le _
  input := Nat.zero_le _
  log := (State.logMatchesRun_iff (by simp [State.resetWith])).mpr (by simp [State.resetWith])
  pending := State.pendingMatchesCode_of_none rfl

/-- A byte that the host delivers keeps the invariant: only the input gets longer (R63). -/
theorem State.inv_answerInput {s : State} (h : s.Inv) (b : Byte) : (s.answerInput b).Inv where
  mem := h.mem
  stack := h.stack
  input := h.input.trans (by simp)
  log := h.log
  pending := fun reg hp =>
    have ⟨hrun, hir, hcode⟩ := h.pending reg hp
    ⟨hrun, hir, (State.codeBytes_congr rfl 2 _).trans hcode⟩

/-- Settles O54. -/
theorem invariantAtReset : Obligations.InvariantAtReset :=
  ⟨State.inv_resetWith, State.inv_resetWith _ _, fun _ b h => State.inv_answerInput h b⟩

/-! ### Canonical memories are the sorted lists of their non-zero cells -/

theorem Memory.read_cons (k a : Nat) (u : Byte) (m : Memory) :
    Memory.read ((k, u) :: m) a = if k = a then u else Memory.read m a := rfl

/-- The cells of a canonical memory are the non-zero bytes at addresses below 256. -/
theorem Memory.mem_iff_of_wfFrom (m : Memory) (lo : Nat) (hm : m.wfFrom lo = true) (a : Nat) (v : Byte) :
    (a, v) ∈ m ↔ a < 256 ∧ Memory.read m a = v ∧ v ≠ 0 := by
  induction m generalizing lo with
  | nil =>
    refine iff_of_false List.not_mem_nil ?_
    rintro ⟨-, h, hv⟩
    exact hv h.symm
  | cons c m ih =>
    obtain ⟨k, u⟩ := c
    simp only [Memory.wfFrom, Bool.and_eq_true, decide_eq_true_eq] at hm
    obtain ⟨⟨-, hk, hu⟩, htail⟩ := hm
    rw [List.mem_cons, ih _ htail, Memory.read_cons]
    split
    · next hka =>
      subst hka
      have hread : Memory.read m k = 0 := Memory.read_below m (k + 1) k (Nat.lt_succ_self k) htail
      constructor
      · rintro (h | ⟨-, hv, hv0⟩)
        · cases h
          exact ⟨hk, rfl, hu⟩
        · exact absurd (hv.symm.trans hread) hv0
      · rintro ⟨-, rfl, -⟩
        exact .inl rfl
    · next hka => simp [Ne.symm hka]

theorem Memory.mem_iff {m : Memory} (hm : m.wf = true) (a : Nat) (v : Byte) :
    (a, v) ∈ m ↔ a < 256 ∧ Memory.read m a = v ∧ v ≠ 0 :=
  m.mem_iff_of_wfFrom 0 hm a v

/-- A canonical memory lists its addresses in increasing order: what stands after an address reads 0 up to it. -/
theorem Memory.pairwise_of_wfFrom (m : Memory) (lo : Nat) (hm : m.wfFrom lo = true) :
    m.Pairwise fun c d => c.1 < d.1 := by
  induction m generalizing lo with
  | nil => exact .nil
  | cons c m ih =>
    obtain ⟨k, u⟩ := c
    have htail : Memory.wfFrom (k + 1) m = true := (Bool.and_eq_true _ _ ▸ hm).2
    refine .cons ?_ (ih _ htail)
    rintro ⟨a, v⟩ hmem
    by_contra hle
    obtain ⟨-, hv, hv0⟩ := (Memory.mem_iff_of_wfFrom m _ htail a v).mp hmem
    exact hv0 (hv.symm.trans (Memory.read_below m (k + 1) a (by omega) htail))

theorem Memory.pairwise_of_wf {m : Memory} (hm : m.wf = true) : m.Pairwise fun c d => c.1 < d.1 :=
  m.pairwise_of_wfFrom 0 hm

/-- Lists of cells in increasing address order are equal when they hold the same cells. -/
theorem cells_eq_of_mem_iff {m n : List Host.Cell} (hm : m.Pairwise fun c d => c.1 < d.1)
    (hn : n.Pairwise fun c d => c.1 < d.1) (h : ∀ (a : Nat) (v : Byte), (a, v) ∈ m ↔ (a, v) ∈ n) : m = n := by
  have nodup {l : List Host.Cell} (hl : l.Pairwise fun c d => c.1 < d.1) : l.Nodup :=
    hl.imp fun hlt he => Nat.ne_of_lt hlt (congrArg Prod.fst he)
  have hperm : m.Perm n := (List.perm_ext_iff_of_nodup (nodup hm) (nodup hn)).mpr fun c => h c.1 c.2
  exact hperm.eq_of_pairwise (fun _ _ _ _ hlt hgt => absurd hgt (Nat.lt_asymm hlt)) hm hn

/-- Settles O58: both memories list, in order, the cells that they read as non-zero. -/
theorem equalMemoriesAreEqualData : Obligations.EqualMemoriesAreEqualData := by
  intro m n hm hn h
  refine cells_eq_of_mem_iff (Memory.pairwise_of_wf hm) (Memory.pairwise_of_wf hn) fun a v => ?_
  rw [Memory.mem_iff hm, Memory.mem_iff hn]
  exact and_congr_right fun ha => by rw [h a ha]

theorem State.mem_dump_cells (s : State) (a : Nat) (v : Byte) :
    (a, v) ∈ s.dump.cells ↔ a < 256 ∧ s.mem.read a = v ∧ v ≠ 0 := by
  simp only [State.dump, List.mem_filter, List.mem_map, List.mem_range, Prod.mk.injEq, bne_iff_ne]
  constructor
  · rintro ⟨⟨_, ha, rfl, hv⟩, hv0⟩
    exact ⟨ha, hv, hv0⟩
  · rintro ⟨ha, hv, hv0⟩
    exact ⟨⟨a, ha, rfl, hv⟩, hv0⟩

theorem State.pairwise_dump_cells (s : State) : s.dump.cells.Pairwise fun c d => c.1 < d.1 := by
  refine List.Pairwise.filter _ ?_
  rw [List.pairwise_map]
  exact List.pairwise_lt_range

/-- Settles O57: the dump and a canonical memory are both the sorted list of the non-zero cells. -/
theorem dumpListsNonZeroCells : Obligations.DumpListsNonZeroCells := by
  refine fun s => ⟨rfl, s.mem_dump_cells, s.pairwise_dump_cells, fun hm => ?_⟩
  refine cells_eq_of_mem_iff s.pairwise_dump_cells (Memory.pairwise_of_wf hm) fun a v => ?_
  rw [State.mem_dump_cells, Memory.mem_iff hm]

end Sys2Proof.Machine

/-! ## Code space (R52 to R54, R70, R101, R104) -/

namespace Sys2Proof.Machine

/-! ### The fetch window -/

/-- Byte k of the fetch window of size n from A can be fetched: it lies in the window, and no address up to its own ends
the image (R101, R104). -/
def State.InWindow (s : State) (n : Nat) (A : Byte) (k : Nat) : Prop :=
  k < n ∧ ∀ j ≤ k, (A + BitVec.ofNat 8 j).toNat < s.cfg.progLen

theorem add_one_add_ofNat (A : Byte) (k : Nat) : A + 1 + BitVec.ofNat 8 k = A + BitVec.ofNat 8 (k + 1) := by
  rw [BitVec.add_assoc, Nat.add_comm k 1, BitVec.ofNat_add]
  rfl

section Window
variable {s : State} {n k : Nat} {A : Byte}

theorem State.InWindow.start_lt (h : s.InWindow n A k) : A.toNat < s.cfg.progLen := by
  simpa using h.2 0 (Nat.zero_le k)

/-- The first byte of a window can be fetched when it stands in the image. -/
theorem State.inWindow_succ_zero : s.InWindow (n + 1) A 0 ↔ A.toNat < s.cfg.progLen := by
  refine ⟨State.InWindow.start_lt, fun h => ⟨n.succ_pos, fun j hj => ?_⟩⟩
  obtain rfl : j = 0 := Nat.le_zero.mp hj
  simpa using h

/-- Where the first byte of a window can be fetched, the others are those of the window from the next address on. -/
theorem State.inWindow_succ_succ (h : A.toNat < s.cfg.progLen) :
    s.InWindow (n + 1) A (k + 1) ↔ s.InWindow n (A + 1) k := by
  simp only [State.InWindow, Nat.add_lt_add_iff_right, add_one_add_ofNat]
  refine and_congr_right fun _ => ⟨fun hj j hle => hj (j + 1) (by omega), fun hj j hle => ?_⟩
  cases j with
  | zero => simpa using h
  | succ j => exact hj j (by omega)

end Window

/-- The fetch window holds the bytes that can be fetched and no other. -/
theorem State.getElem?_codeBytes (s : State) (n : Nat) (A : Byte) (k : Nat) :
    (s.InWindow n A k → (s.codeBytes n A)[k]? = s.cfg.prog[(A + BitVec.ofNat 8 k).toNat]?) ∧
    (¬s.InWindow n A k → (s.codeBytes n A)[k]? = none) := by
  induction n generalizing A k with
  | zero => exact ⟨fun h => absurd h.1 (Nat.not_lt_zero k), fun _ => rfl⟩
  | succ n ih =>
    cases hb : s.codeRead? A with
    | none =>
      have hend : s.cfg.progLen ≤ A.toNat := State.codeRead?_eq_none_iff.mp hb
      rw [State.codeBytes_end hb]
      exact ⟨fun h => absurd h.start_lt (Nat.not_lt.mpr hend), fun _ => rfl⟩
    | some b =>
      have hlt : A.toNat < s.cfg.progLen := (List.getElem?_eq_some_iff.mp hb).1
      rw [State.codeBytes_cons hb]
      cases k with
      | zero => exact ⟨fun _ => by simpa [State.codeRead?] using hb.symm, fun h => absurd (State.inWindow_succ_zero.mpr hlt) h⟩
      | succ k =>
        rw [State.inWindow_succ_succ hlt, ← add_one_add_ofNat, List.getElem?_cons_succ]
        exact ih (A + 1) k

/-- Settles O6. -/
theorem fetchWindowBytes : Obligations.FetchWindowBytes := State.getElem?_codeBytes

/-! ### The parameters and the delivered input -/

theorem Steps.cfg_eq {s t : State} (h : Steps s t) : t.cfg = s.cfg := by
  cases h with
  | waiting _ _ he => exact he.cfg_eq
  | executes _ _ _ _ _ _ he => exact he.cfg_eq
  | _ => rfl

theorem Steps.input_eq {s t : State} (h : Steps s t) : t.input = s.input := by
  cases h with
  | waiting _ _ he => exact he.input_eq
  | executes _ _ _ _ _ _ he => exact he.input_eq
  | _ => rfl

/-- Settles O39: no way of a step, through an execute phase or without one, changes either. -/
theorem codeSpaceReadOnly : Obligations.CodeSpaceReadOnly :=
  fun _ _ h => ⟨(steps_of_step h).cfg_eq, (steps_of_step h).input_eq⟩

/-! ### What no step reads: the program image beyond the addresses of `pc` (R53) -/

/-- The state with the program image replaced. -/
def State.withProg (s : State) (prog : List Byte) : State := { s with cfg := { s.cfg with prog := prog } }

section WithProg
variable (s : State) (prog : List Byte)

theorem State.checkReg_withProg (m : Mnemonic) (i : Byte) :
    (s.withProg prog).checkReg m i = (s.checkReg m i).withProg prog := by
  unfold State.checkReg
  split <;> rfl

theorem State.writeReg_withProg (i v : Byte) :
    (s.withProg prog).writeReg i v = (s.writeReg i v).withProg prog := by
  unfold State.writeReg
  split <;> rfl

variable {s}

/-- An execute phase does the same with every program image. -/
theorem Executes.withProg {t : State} {i : Instr} (h : Executes s i t) :
    Executes (s.withProg prog) i (t.withProg prog) := by
  cases h with
  | nop => exact .nop
  | update hi =>
    rw [← State.writeReg_withProg, ← State.checkReg_withProg]
    exact .update hi
  | store reg addr =>
    have := Executes.store (s := s.withProg prog) reg addr
    rwa [State.checkReg_withProg] at this
  | readTakes reg v hv =>
    rw [← State.writeReg_withProg, ← State.checkReg_withProg]
    exact .readTakes reg v hv
  | readWaits reg hl => exact .readWaits reg hl
  | write reg =>
    have := Executes.write (s := s.withProg prog) reg
    rwa [State.checkReg_withProg] at this
  | jmp addr => exact .jmp addr
  | callPushes addr hf => exact .callPushes addr hf
  | callOverflows addr hf => exact .callOverflows addr hf
  | retPops target rest hs => exact .retPops target rest hs
  | retUnderflows hs => exact .retUnderflows hs
  | beqTaken addr hx => exact .beqTaken addr hx
  | beqFalls addr hx => exact .beqFalls addr hx
  | bneTaken addr hx => exact .bneTaken addr hx
  | bneFalls addr hx => exact .bneFalls addr hx
  | int => exact .int

theorem exec_withProg (i : Instr) (s : State) :
    exec i (s.withProg prog) = mapNext (State.withProg · prog) (exec i s) := by
  obtain ⟨t, e, h⟩ := exec_executes i s
  rw [e]
  exact (h.withProg prog).exec_eq

/-- Code bytes depend on the code reads alone. -/
theorem State.codeBytes_congr_codeRead? {s t : State} (h : ∀ a, s.codeRead? a = t.codeRead? a) (n : Nat) (A : Byte) :
    s.codeBytes n A = t.codeBytes n A := by
  induction n generalizing A with
  | zero => rfl
  | succ n ih => simp only [State.codeBytes, h, ih]

variable {prog} (h : ∀ a, (s.withProg prog).codeRead? a = s.codeRead? a)
include h

/-- The phases before execute do the same with a program image that reads alike. -/
theorem fetchDecode_withProg : fetchDecode (s.withProg prog) = (fetchDecode s).map (State.withProg · prog) := by
  have hw : (s.withProg prog).codeBytes maxLength (s.withProg prog).pc = s.codeBytes maxLength s.pc :=
    State.codeBytes_congr_codeRead? h _ _
  have hom : (s.withProg prog).cfg.opcodeOf = s.cfg.opcodeOf := rfl
  simp only [fetchDecode, hw, hom]
  rcases decode s.cfg.opcodeOf (s.codeBytes maxLength s.pc) with (_ | _ | _) | _ <;> rfl

/-- A step does the same with a program image that reads alike. -/
theorem step_withProg : step (s.withProg prog) = mapNext (State.withProg · prog) (step s) := by
  have hf := fetchDecode_withProg h
  rcases step_cases s with ⟨hr, e⟩ | ⟨reg, hr, hp, e⟩ | ⟨t, hr, hp, ht, e⟩ | ⟨i, t, hr, hp, ht, e⟩ <;> rw [e]
  · exact step_of_halted (s := s.withProg prog) hr
  · rw [step_of_waiting (s := s.withProg prog) hr hp]
    exact exec_withProg prog (.read reg) s
  · rw [ht] at hf
    exact step_of_ended (s := s.withProg prog) hr hp hf
  · rw [ht] at hf
    rw [step_of_run (s := s.withProg prog) hr hp hf]
    exact exec_withProg prog i t

end WithProg

/-- Two ways to change the next states give the same answer when they agree on the next state. -/
theorem mapNext_congr {f g : State → State} {r : Result} (h : ∀ t, r = .next t → f t = g t) :
    mapNext f r = mapNext g r := by
  cases r with
  | next t => exact congrArg Host.Outcome.next (h t rfl)
  | fault | refused => rfl

/-- An image of 256 bytes or more reads at every address of `pc` as its first 256 bytes do, whatever stands after them. -/
theorem State.codeRead?_withProg_take (s : State) (hL : 256 ≤ s.cfg.progLen) (tail : List Byte) (a : Byte) :
    (s.withProg (s.cfg.prog.take 256 ++ tail)).codeRead? a = s.codeRead? a := by
  have hlen : a.toNat < (s.cfg.prog.take 256).length := by
    rw [List.length_take_of_le hL]
    exact a.isLt
  calc (s.cfg.prog.take 256 ++ tail)[a.toNat]?
      = (s.cfg.prog.take 256)[a.toNat]? := List.getElem?_append_left hlen
    _ = s.cfg.prog[a.toNat]? := List.getElem?_take_of_lt a.isLt

/-- Exchanging the bytes from 256 on changes no step. -/
theorem step_exchange_tail (s : State) (hL : 256 ≤ s.cfg.progLen) (tail : List Byte) :
    step (s.withProg (s.cfg.prog.take 256 ++ tail)) =
      mapNext (fun t => { t with cfg := { s.cfg with prog := s.cfg.prog.take 256 ++ tail } }) (step s) := by
  rw [step_withProg (s.codeRead?_withProg_take hL tail)]
  refine mapNext_congr fun t ht => ?_
  rw [← (steps_of_step ht).cfg_eq]
  rfl

/-! ### No normal halt with an image of 256 bytes or more (R53, R101) -/

/-- What a step keeps, and the host's delivery before it, holds along a run. -/
theorem State.Reaches.keeps {P : State → Prop} {src : InputSource} (hsupply : ∀ s, P s → P (s.supply src))
    (hstep : ∀ s t, P s → step s = .next t → P t) {n : Nat} {s t : State} (h : s.Reaches src n t) (hs : P s) : P t := by
  induction n generalizing s with
  | zero => exact State.reaches_zero.mp h ▸ hs
  | succ n ih =>
    cases hu : step (s.supply src) with
    | next u => exact ih ((State.reaches_succ hu).mp h) (hstep _ u (hsupply s hs) hu)
    | fault r => cases r
    | refused r => simp [State.Reaches, runWith, hu] at h

/-- An execute phase never ends a run normally. -/
theorem Executes.run_ne_haltedNormal {s t : State} {i : Instr} (h : Executes s i t) (hr : s.run = .running) :
    t.run ≠ .haltedNormal := by
  rcases h.log_cases with ⟨e, _⟩ | ⟨e, _⟩ <;> simp [e, hr]

/-- The image has 256 bytes or more and the run has not ended normally. -/
def State.LongUnended (s : State) : Prop := 256 ≤ s.cfg.progLen ∧ s.run ≠ .haltedNormal

/-- With an image of 256 bytes or more no step ends a run normally: there is a byte at every address of `pc`. -/
theorem Steps.longUnended {s t : State} (h : Steps s t) (hs : s.LongUnended) : t.LongUnended := by
  obtain ⟨hL, hrun⟩ := hs
  refine ⟨h.cfg_eq ▸ hL, ?_⟩
  cases h with
  | halted => exact hrun
  | waiting hr _ he => exact he.run_ne_haltedNormal hr
  | haltsNormally _ _ hb =>
    have hend : s.cfg.progLen ≤ s.pc.toNat := State.codeRead?_eq_none_iff.mp hb
    have hpc : s.pc.toNat < 256 := s.pc.isLt
    omega
  | fetchFails => simp
  | executes hr _ _ _ _ _ he => exact he.run_ne_haltedNormal hr

theorem State.not_endsNormally_of_long {s : State} (hL : 256 ≤ s.cfg.progLen) (hr : s.run = .running)
    (src : InputSource) : ¬s.EndsNormally src := by
  rintro ⟨n, t, h, ht⟩
  have hkeep : t.LongUnended :=
    h.keeps (fun s hs => by simpa [State.LongUnended] using hs) (fun _ _ hs hst => (steps_of_step hst).longUnended hs)
      ⟨hL, by simp [hr]⟩
  exact hkeep.2 ht

/-- Settles O40: a step reads code only at addresses below 256, and there such an image has no end. -/
theorem longImageNeverHaltsNormally : Obligations.LongImageNeverHaltsNormally :=
  fun s hL => ⟨State.not_endsNormally_of_long hL, step_exchange_tail s hL⟩

end Sys2Proof.Machine

/-! ## Encoding (R7, R70 to R76) -/

namespace Sys2Proof.Machine

/-! ### One instruction -/

/-- An instruction built from operand bytes encodes to the opcode and as many of those bytes as the arity asks for. -/
theorem encode_ofOperands (om : OpcodeMap) {m : Mnemonic} {bs : List Byte} (h : m.arity ≤ bs.length) :
    encode om (Instr.ofOperands m (bs.getD 0 0) (bs.getD 1 0)) = om.of m :: bs.take m.arity := by
  rw [encode, Instr.mnemonic_ofOperands, Instr.operands_ofOperands m bs h]

theorem exists_encode_eq (om : OpcodeMap) {m : Mnemonic} {bs : List Byte} (h : bs.length = m.arity) :
    ∃ i, encode om i = om.of m :: bs :=
  ⟨_, (encode_ofOperands om h.ge).trans (by rw [← h, List.take_length])⟩

section WithMap
variable {om : OpcodeMap} (hwf : om.wf = true)
include hwf

/-- The opcode names the mnemonic because the map is injective; the operands are then the first bytes after it. -/
theorem decode_encode_append (i : Instr) (rest : List Byte) : decode om (encode om i ++ rest) = .ok (i, rest) :=
  decode_eq_ok_iff.mpr ⟨om.of i.mnemonic, i.operands ++ rest, i.mnemonic, rfl, OpcodeMap.mnemonicOf?_of hwf _,
    by simp, (i.ofOperands_operands rest).symm, (List.drop_left' i.operands_length).symm⟩

theorem decode_encode (i : Instr) : decode om (encode om i) = .ok (i, []) := by
  simpa using decode_encode_append hwf i []

/-- Under an injective map the inverse map is exactly the inverse. -/
theorem mnemonicOf?_eq_some_iff {b : Byte} {m : Mnemonic} : om.mnemonicOf? b = some m ↔ om.of m = b :=
  ⟨OpcodeMap.of_mnemonicOf?, fun h => h ▸ OpcodeMap.mnemonicOf?_of hwf m⟩

theorem decode_cons_eq_truncated_iff {b : Byte} {bs : List Byte} :
    decode om (b :: bs) = .error (.truncated b) ↔ ∃ m, om.of m = b ∧ bs.length < m.arity := by
  simp [decode_eq_truncated_iff, mnemonicOf?_eq_some_iff hwf]

end WithMap

theorem decode_cons_eq_unknownOpcode_iff {om : OpcodeMap} {b : Byte} {bs : List Byte} :
    decode om (b :: bs) = .error (.unknownOpcode b) ↔ ∀ m, om.of m ≠ b := by
  simp [decode_eq_unknownOpcode_iff, OpcodeMap.mnemonicOf?_eq_none]

/-- A non-empty byte list is refused in two ways only, both of which name its first byte. -/
theorem decode_cons_eq_error {om : OpcodeMap} {b : Byte} {bs : List Byte} {e : DecodeError}
    (h : decode om (b :: bs) = .error e) : e = .unknownOpcode b ∨ e = .truncated b := by
  cases e with
  | noOpcode => cases decode_eq_noOpcode_iff.mp h
  | unknownOpcode c =>
    obtain ⟨_, hbs, _⟩ := decode_eq_unknownOpcode_iff.mp h
    cases hbs
    exact .inl rfl
  | truncated c =>
    obtain ⟨_, _, hbs, _⟩ := decode_eq_truncated_iff.mp h
    cases hbs
    exact .inr rfl

/-- Settles O1: the decoder's inversion lemma, applied to an encoding. -/
theorem decodeEncodeRoundTrip : Obligations.DecodeEncodeRoundTrip := fun _ hwf => decode_encode_append hwf

/-- Settles O2: the opcode is the mnemonic's, the operands are the bytes taken, the rest are the bytes dropped. -/
theorem decodedBytesReencode : Obligations.DecodedBytesReencode := by
  intro om bs i rest h
  obtain ⟨opcode, tail, m, rfl, hm, hlen, rfl, rfl⟩ := decode_eq_ok_iff.mp h
  calc encode om (Instr.ofOperands m (tail.getD 0 0) (tail.getD 1 0)) ++ tail.drop m.arity
      = om.of m :: (tail.take m.arity ++ tail.drop m.arity) := by rw [encode_ofOperands om hlen, List.cons_append]
    _ = opcode :: tail := by rw [List.take_append_drop, OpcodeMap.of_mnemonicOf? hm]

/-- Settles O3: each rejection by its own condition, and no third one. -/
theorem decodeRejectsByName : Obligations.DecodeRejectsByName := by
  intro om hwf b bs
  have hunknown := decode_cons_eq_unknownOpcode_iff (om := om) (b := b) (bs := bs)
  have htruncated := decode_cons_eq_truncated_iff hwf (b := b) (bs := bs)
  refine ⟨hunknown, htruncated, ?_, ?_⟩
  · rintro ⟨e, he⟩
    obtain rfl | rfl := decode_cons_eq_error he
    · exact .inl (hunknown.mp he)
    · exact .inr (htruncated.mp he)
  · rintro (h | h)
    · exact ⟨_, hunknown.mpr h⟩
    · exact ⟨_, htruncated.mpr h⟩

/-! ### The default opcode values (R73) -/

theorem wf_default : OpcodeMap.default.wf = true := by decide

/-- The default opcode of a mnemonic is its position in the listing. -/
theorem of_default_all (k : Fin 16) : OpcodeMap.default.of Mnemonic.all[k] = BitVec.ofNat 8 k := by
  revert k
  decide

theorem toNat_of_default_lt (m : Mnemonic) : (OpcodeMap.default.of m).toNat < 16 := by cases m <;> decide

theorem isSome_mnemonicOf?_default_iff (b : Byte) : (OpcodeMap.default.mnemonicOf? b).isSome = true ↔ b.toNat < 16 := by
  constructor
  · intro h
    obtain ⟨m, hm⟩ := Option.isSome_iff_exists.mp h
    rw [← OpcodeMap.of_mnemonicOf? hm]
    exact toNat_of_default_lt m
  · intro h
    have hb : OpcodeMap.default.of _ = b := (of_default_all ⟨b.toNat, h⟩).trans (by simp)
    exact Option.isSome_of_mem ((mnemonicOf?_eq_some_iff wf_default).mpr hb)

/-- Settles O4: the table is read off the definitions, and the valid bytes are the listing's positions. -/
theorem defaultOpcodeTable : Obligations.DefaultOpcodeTable := ⟨rfl, wf_default, isSome_mnemonicOf?_default_iff⟩

/-- Settles O5: each word is the encoding of its instruction under the default map, so it decodes to it. -/
theorem familyWordsDecode : Obligations.FamilyWordsDecode :=
  have h := decode_encode wf_default
  ⟨h .nop, h (.load 2 200), h (.store 1 16), h (.sub 1 200), h (.read 2), h (.write 0), h (.call 5), h .ret,
    h (.bne 6), h .int⟩

/-! ### Instruction sequences -/

@[simp] theorem encodeAll_nil (om : OpcodeMap) : encodeAll om [] = [] := rfl

@[simp] theorem encodeAll_cons (om : OpcodeMap) (i : Instr) (is : List Instr) :
    encodeAll om (i :: is) = encode om i ++ encodeAll om is := rfl

@[simp] theorem encodeAll_append (om : OpcodeMap) (is js : List Instr) :
    encodeAll om (is ++ js) = encodeAll om is ++ encodeAll om js := List.flatMap_append

@[simp] theorem decodeAll_nil (om : OpcodeMap) (fuel : Nat) : decodeAll om fuel [] = some [] := by cases fuel <;> rfl

/-- One instruction of a sequence takes one unit of fuel. -/
theorem decodeAll_encode_append {om : OpcodeMap} (hwf : om.wf = true) (fuel : Nat) (i : Instr) (bs : List Byte) :
    decodeAll om (fuel + 1) (encode om i ++ bs) = (decodeAll om fuel bs).map (i :: ·) := by
  have h := decode_encode_append hwf i bs
  simp only [encode, List.cons_append] at h ⊢
  simp only [decodeAll, h]

/-- Every instruction has at least its opcode byte, so the number of bytes is fuel enough. -/
theorem decodeAll_encodeAll {om : OpcodeMap} (hwf : om.wf = true) (is : List Instr) {fuel : Nat}
    (hfuel : (encodeAll om is).length ≤ fuel) : decodeAll om fuel (encodeAll om is) = some is := by
  induction is generalizing fuel with
  | nil => simp
  | cons i is ih =>
    simp only [encodeAll_cons, encode, List.length_append, List.length_cons] at hfuel
    obtain ⟨fuel, rfl⟩ : ∃ n, fuel = n + 1 := Nat.exists_eq_add_one.mpr (by omega)
    rw [encodeAll_cons, decodeAll_encode_append hwf, ih (by omega), Option.map_some]

end Sys2Proof.Machine

/-! ## The reference assembler (R78 to R84) -/

namespace Sys2Proof.Machine

/-! ### Tokens -/

/-- A run of characters that the assembler keeps whole: not empty, no whitespace, no comment mark (R78, R79). -/
def IsWord (t : Token) : Prop := t ≠ [] ∧ ∀ c ∈ t, c.isWhitespace = false ∧ c ≠ '#'

theorem flushToken_of_ne_nil {t : Token} (ht : t ≠ []) (ts : List Token) : flushToken (t, ts) = t :: ts := if_neg ht

theorem foldr_tokenStep {t : Token} (ht : ∀ c ∈ t, c.isWhitespace = false) (p : Token × List Token) :
    t.foldr tokenStep p = (t ++ p.1, p.2) := by
  induction t with
  | nil => rfl
  | cons c t ih =>
    obtain ⟨hc, ht⟩ := List.forall_mem_cons.mp ht
    simp [ih ht, tokenStep, hc]

/-- A word after a run of space-separated words is in hand, not yet flushed. -/
theorem foldr_tokenStep_words {w : Token} {ts : List Token} (hw : IsWord w) (hts : ∀ t ∈ ts, IsWord t) :
    (w ++ ts.flatMap (' ' :: ·)).foldr tokenStep ([], []) = (w, ts) := by
  induction ts generalizing w with
  | nil => simp [foldr_tokenStep fun c hc => (hw.2 c hc).1]
  | cons t ts ih =>
    obtain ⟨ht, hts⟩ := List.forall_mem_cons.mp hts
    have hspace : (' ' :: (t ++ ts.flatMap (' ' :: ·))).foldr tokenStep ([], []) = ([], t :: ts) := by
      rw [List.foldr_cons, ih ht hts, ← flushToken_of_ne_nil ht.1 ts]
      rfl
    rw [List.flatMap_cons, List.cons_append, List.foldr_append, hspace, foldr_tokenStep fun c hc => (hw.2 c hc).1]
    simp

/-- Words written with single spaces between them are their own tokens. -/
theorem tokens_words {w : Token} {ts : List Token} (hw : IsWord w) (hts : ∀ t ∈ ts, IsWord t) :
    tokens (w ++ ts.flatMap (' ' :: ·)) = w :: ts := by
  rw [tokens, foldr_tokenStep_words hw hts, flushToken_of_ne_nil hw.1]

theorem stripComment_words {w : Token} {ts : List Token} (hw : IsWord w) (hts : ∀ t ∈ ts, IsWord t) :
    stripComment (w ++ ts.flatMap (' ' :: ·)) = w ++ ts.flatMap (' ' :: ·) := by
  refine List.takeWhile_eq_self_iff.mpr fun c hc => bne_iff_ne.mpr ?_
  rw [List.mem_append, List.mem_flatMap] at hc
  obtain hc | ⟨t, ht, hc⟩ := hc
  · exact (hw.2 c hc).2
  · obtain rfl | hc := List.mem_cons.mp hc
    · decide
    · exact ((hts t ht).2 c hc).2

/-! ### Mnemonics and operands as text -/

theorem isWord_mnemonicName (m : Mnemonic) : IsWord (mnemonicName m) := by
  cases m <;> simp [IsWord, mnemonicName, Char.isWhitespace]

/-- No two mnemonics share a name. -/
theorem mnemonicNamed?_mnemonicName (m : Mnemonic) : mnemonicNamed? (mnemonicName m) = some m := by cases m <;> decide

/-- What the assembler asks of the character of a digit. -/
theorem digitChar_spec : ∀ n < 10, (digitChar n).isDigit = true ∧ (digitChar n).toNat - 48 = n ∧
    (digitChar n).isWhitespace = false ∧ digitChar n ≠ '#' := by decide

/-- The number that decimal digits stand for, the most significant first. -/
def digitsValue (ds : List Nat) : Nat := ds.foldl (fun acc d => 10 * acc + d) 0

/-- A byte is written with at most three decimal digits that stand for it. -/
theorem decimalText_eq_digits (b : Byte) :
    ∃ ds, decimalText b = ds.map digitChar ∧ ds ≠ [] ∧ (∀ d ∈ ds, d < 10) ∧ digitsValue ds = b.toNat := by
  have hb := b.isLt
  unfold decimalText
  split
  · exact ⟨[b.toNat], rfl, by simp, by simpa, by simp [digitsValue]⟩
  · split
    · exact ⟨[b.toNat / 10, b.toNat % 10], rfl, by simp, by simp; omega, by simp [digitsValue]; omega⟩
    · exact ⟨[b.toNat / 100, b.toNat / 10 % 10, b.toNat % 10], rfl, by simp, by simp; omega,
        by simp [digitsValue]; omega⟩

theorem decimalValue_map_digitChar {ds : List Nat} (hds : ∀ d ∈ ds, d < 10) :
    decimalValue (ds.map digitChar) = digitsValue ds := by
  rw [decimalValue, digitsValue, List.foldl_map]
  exact List.foldl_ext _ _ _ fun acc d hd => by rw [(digitChar_spec d (hds d hd)).2.1]

theorem isWord_decimalText (b : Byte) : IsWord (decimalText b) := by
  obtain ⟨ds, htext, hne, hlt, _⟩ := decimalText_eq_digits b
  rw [htext]
  refine ⟨by simpa using hne, List.forall_mem_map.mpr fun d hd => ?_⟩
  obtain ⟨_, _, hspace, hmark⟩ := digitChar_spec d (hlt d hd)
  exact ⟨hspace, hmark⟩

/-- A byte written in decimal is read back (R80). -/
theorem parseOperand?_decimalText (b : Byte) : parseOperand? (decimalText b) = some b := by
  obtain ⟨ds, htext, hne, hlt, hvalue⟩ := decimalText_eq_digits b
  have hdigit : (ds.map digitChar).all Char.isDigit = true := by
    simpa using fun d hd => (digitChar_spec d (hlt d hd)).1
  have hle : digitsValue ds ≤ 255 := by have := b.isLt; omega
  rw [htext, parseOperand?, decimalValue_map_digitChar hlt, if_pos ⟨by simpa using hne, hdigit, hle⟩, hvalue,
    BitVec.ofNat_toNat, BitVec.setWidth_eq]

/-! ### Instructions as text -/

theorem assembleOperands_decimalText (m : Mnemonic) (bs : List Byte) :
    assembleOperands m (bs.map decimalText) = (bs, []) := by
  induction bs with
  | nil => rfl
  | cons b bs ih => simp [assembleOperands, parseOperand?_decimalText, ih]

theorem tokens_instrText (i : Instr) :
    tokens (stripComment (instrText i)) = mnemonicName i.mnemonic :: i.operands.map decimalText := by
  have hm := isWord_mnemonicName i.mnemonic
  have hops : ∀ t ∈ i.operands.map decimalText, IsWord t := List.forall_mem_map.mpr fun b _ => isWord_decimalText b
  have htext : instrText i = mnemonicName i.mnemonic ++ (i.operands.map decimalText).flatMap (' ' :: ·) := by
    rw [instrText, List.flatMap_map]
  rw [htext, stripComment_words hm hops, tokens_words hm hops]

theorem assembleLine_instrText (om : OpcodeMap) (i : Instr) : assembleLine om (instrText i) = (encode om i, []) := by
  simp [assembleLine, tokens_instrText, mnemonicNamed?_mnemonicName, assembleOperands_decimalText, encode]

theorem assemble_map_instrText (om : OpcodeMap) (is : List Instr) :
    assemble om (is.map instrText) = (encodeAll om is, []) := by
  simp [assemble, List.flatMap_map, assembleLine_instrText, encodeAll]

/-- Settles O59: each line gives its instruction's bytes, and a sequence's bytes decode to the sequence. -/
theorem assembleThenDecodeRoundTrip : Obligations.AssembleThenDecodeRoundTrip := fun om hwf is =>
  ⟨assemble_map_instrText om is, decodeAll_encodeAll hwf is le_rfl⟩

/-! ### Text without a diagnostic -/

/-- Operands without a diagnostic give one byte for each token. -/
theorem length_assembleOperands {m : Mnemonic} {ts : List Token} (h : (assembleOperands m ts).2 = []) :
    (assembleOperands m ts).1.length = ts.length := by
  induction ts with
  | nil => rfl
  | cons t ts ih =>
    cases hp : parseOperand? t with
    | none => simp [assembleOperands, hp] at h
    | some b =>
      simp only [assembleOperands, hp] at h ⊢
      rw [List.length_cons, List.length_cons, ih h]

/-- A line without a diagnostic is blank or gives one whole instruction (R79). -/
theorem assembleLine_of_clean {om : OpcodeMap} {line : List Char} (h : (assembleLine om line).2 = []) :
    ∃ is, (assembleLine om line).1 = encodeAll om is := by
  unfold assembleLine at h ⊢
  cases htokens : tokens (stripComment line) with
  | nil => exact ⟨[], rfl⟩
  | cons t ops =>
    cases hm : mnemonicNamed? t with
    | none => simp [htokens, hm] at h
    | some m =>
      by_cases hcount : ops.length = m.arity
      · simp only [htokens, hm, if_pos hcount] at h ⊢
        obtain ⟨i, hi⟩ := exists_encode_eq om ((length_assembleOperands h).trans hcount)
        exact ⟨[i], by rw [encodeAll_cons, encodeAll_nil, List.append_nil, hi]⟩
      · simp [htokens, hm, hcount] at h

theorem assemble_cons (om : OpcodeMap) (line : List Char) (lines : List (List Char)) :
    assemble om (line :: lines) =
      ((assembleLine om line).1 ++ (assemble om lines).1, (assembleLine om line).2 ++ (assemble om lines).2) := rfl

theorem assemble_of_clean {om : OpcodeMap} {lines : List (List Char)} (h : (assemble om lines).2 = []) :
    ∃ is, (assemble om lines).1 = encodeAll om is := by
  induction lines with
  | nil => exact ⟨[], rfl⟩
  | cons line lines ih =>
    rw [assemble_cons] at h ⊢
    obtain ⟨hline, hlines⟩ := List.append_eq_nil_iff.mp h
    obtain ⟨is, his⟩ := assembleLine_of_clean hline
    obtain ⟨js, hjs⟩ := ih hlines
    exact ⟨is ++ js, by rw [encodeAll_append, his, hjs]⟩

/-- Settles O60: every clean line gives whole instructions, and their bytes decode to them. -/
theorem cleanAssemblyDecodesWhole : Obligations.CleanAssemblyDecodesWhole := by
  intro om hwf lines bs h
  obtain ⟨is, his⟩ := assemble_of_clean (congrArg Prod.snd h)
  obtain rfl : bs = encodeAll om is := (congrArg Prod.fst h).symm.trans his
  exact ⟨is, rfl, decodeAll_encodeAll hwf is le_rfl⟩

end Sys2Proof.Machine

/-! ## The sequencer (R100 to R109, R230) -/

namespace Sys2Proof.Machine

/-! ### The phases before execute, one equation for each way they end -/

section FetchDecode
variable {s : State} {b : Byte}

theorem fetchDecode_of_end (hb : s.codeRead? s.pc = none) : fetchDecode s = .ended s.haltNormal := by
  simp [fetchDecode, State.codeBytes_end hb, decode]

theorem fetchDecode_of_unknown (hb : s.codeRead? s.pc = some b) (hm : s.cfg.opcodeOf.mnemonicOf? b = none) :
    fetchDecode s = .ended ((s.consume [b]).raise (.unknownOpcode b s.pc)) := by
  have hw : s.codeBytes maxLength s.pc = b :: s.codeBytes 2 (s.pc + 1) := State.codeBytes_cons hb
  simp only [fetchDecode, decode_eq_unknownOpcode_iff.mpr ⟨_, hw, hm⟩]
  rw [hw]
  rfl

theorem fetchDecode_of_truncated {tail : List Byte} {m : Mnemonic} (hw : s.codeBytes maxLength s.pc = b :: tail)
    (hm : s.cfg.opcodeOf.mnemonicOf? b = some m) (ha : tail.length < m.arity) :
    fetchDecode s = .ended ((s.consume (b :: tail)).raise (.truncatedInstruction b s.pc)) := by
  simp only [fetchDecode, decode_eq_truncated_iff.mpr ⟨tail, m, hw, hm, ha⟩]
  rw [hw]

/-- The bytes taken for a decoded instruction are its encoding, so its opcode goes to `ir` and `pc` advances by its length. -/
theorem fetchDecode_of_decode {i : Instr} {rest : List Byte}
    (h : decode s.cfg.opcodeOf (s.codeBytes maxLength s.pc) = .ok (i, rest)) :
    fetchDecode s = .run i { s with ir := s.cfg.opcodeOf.of i.mnemonic, pc := s.pc + BitVec.ofNat 8 i.length } := by
  have hcode : encode s.cfg.opcodeOf i ++ rest = s.codeBytes maxLength s.pc := decodedBytesReencode _ _ _ _ h
  obtain ⟨_, hlen, _⟩ := Laws.EncodingShape.shape i s.cfg.opcodeOf
  have htake : (s.codeBytes maxLength s.pc).take i.length = encode s.cfg.opcodeOf i := by
    rw [← hcode, ← hlen, List.take_left]
  simp only [fetchDecode, h, htake]
  rw [State.consume, hlen]
  rfl

end FetchDecode

/-- Settles O8. -/
theorem stepRunsDecodedInstruction : Obligations.StepRunsDecodedInstruction :=
  fun _ _ _ hr hp h => step_of_run hr hp (fetchDecode_of_decode h)

/-- Settles O9: at the image's end there is no opcode byte; anywhere else a step halts normally neither in its fetches nor
in its execute phase. -/
theorem haltCheckAtImageEnd : Obligations.HaltCheckAtImageEnd := by
  refine fun s hr hp => ⟨fun hL => ?_, fun t h ht => ?_⟩
  · exact step_of_ended hr hp (fetchDecode_of_end (State.codeRead?_eq_none_iff.mpr hL))
  · cases steps_of_step h with
    | halted hr' => exact absurd hr hr'
    | waiting _ hp' => cases hp.symm.trans hp'
    | haltsNormally _ _ hb => exact State.codeRead?_eq_none_iff.mp hb
    | fetchFails => cases ht
    | executes _ _ _ _ _ _ he => exact absurd ht (he.run_ne_haltedNormal hr)

/-- Settles O10. -/
theorem unknownOpcodeHalts : Obligations.UnknownOpcodeHalts := by
  refine fun s b hr hp hb => ⟨fun hm => ?_, fun hwf m hm => (mnemonicOf?_eq_some_iff hwf).mpr hm⟩
  exact step_of_ended hr hp (fetchDecode_of_unknown hb (OpcodeMap.mnemonicOf?_eq_none.mpr hm))

/-! ### Truncation (R104, R105) -/

/-- A window that the image's end cuts short at byte k has k bytes. -/
theorem State.length_codeBytes_of_end {s : State} {n k : Nat} {A : Byte} (hk : k ≤ n)
    (hin : ∀ j < k, (A + BitVec.ofNat 8 j).toNat < s.cfg.progLen)
    (hend : s.cfg.progLen ≤ (A + BitVec.ofNat 8 k).toNat) : (s.codeBytes n A).length = k := by
  have hbyte (j : Nat) (hj : j < k) : (s.codeBytes n A)[j]? ≠ none := by
    rw [(s.getElem?_codeBytes n A j).1 ⟨by omega, fun i hi => hin i (by omega)⟩]
    simpa using hin j hj
  have hnone : (s.codeBytes n A)[k]? = none :=
    (s.getElem?_codeBytes n A k).2 fun h => Nat.not_lt.mpr hend (h.2 k le_rfl)
  have hle : (s.codeBytes n A).length ≤ k := by simpa using hnone
  by_contra hne
  exact hbyte (s.codeBytes n A).length (by omega) (by simp)

/-- An address from L on that follows an address below L is L: it has not wrapped, as 0 is below L. -/
theorem toNat_add_one_of_end {A : Byte} {L : Nat} (hA : A.toNat < L) (hend : L ≤ (A + 1).toNat) : (A + 1).toNat = L := by
  have h : (A + 1).toNat = (A.toNat + 1) % 256 := BitVec.toNat_add A 1
  omega

/-- Settles O11: the window holds the opcode and the k operands before the missing one, so the fetches end at that one's
address, which follows an address below L. -/
theorem truncatedInstructionHalts : Obligations.TruncatedInstructionHalts := by
  intro s b m k hr hp hb hm hk hin hend
  have harity : m.arity ≤ 2 := m.arity_le_two
  have hlen : (s.codeBytes 2 (s.pc + 1)).length = k := State.length_codeBytes_of_end (by omega) hin hend
  have hL : (s.pc + 1 + BitVec.ofNat 8 k).toNat = s.cfg.progLen := by
    cases k with
    | zero =>
      have hpc : s.pc.toNat < s.cfg.progLen := (List.getElem?_eq_some_iff.mp hb).1
      rw [BitVec.add_zero] at hend ⊢
      exact toNat_add_one_of_end hpc hend
    | succ j =>
      have hnext : s.pc + 1 + BitVec.ofNat 8 (j + 1) = s.pc + 1 + BitVec.ofNat 8 j + 1 := by
        rw [BitVec.ofNat_add, ← BitVec.add_assoc]
        rfl
      rw [hnext] at hend ⊢
      exact toNat_add_one_of_end (hin j (Nat.lt_succ_self j)) hend
  have hlt : (s.pc + 1 + BitVec.ofNat 8 k).toNat < 256 := BitVec.isLt _
  refine ⟨?_, hL, by omega⟩
  rw [step_of_ended hr hp (fetchDecode_of_truncated (State.codeBytes_cons hb) hm (by omega)), add_one_add_ofNat, ← hlen]
  rfl

/-! ### The pseudocode of R109 -/

section Pseudocode
variable {s : State} {A b : Byte}

theorem State.pastEnd_of_none (hb : s.codeRead? s.pc = none) : s.pastEnd = true := by
  simpa [State.pastEnd] using State.codeRead?_eq_none_iff.mp hb

theorem State.pastEnd_of_some (hb : s.codeRead? s.pc = some b) : s.pastEnd = false := by
  simpa [State.pastEnd] using (List.getElem?_eq_some_iff.mp hb).1

theorem State.progByte_of_some {a : Byte} (hb : s.codeRead? a = some b) : s.progByte a = b := by
  simp [State.progByte, List.getD_eq_getElem?_getD, show s.cfg.prog[a.toNat]? = some b from hb]

theorem State.fetchOperand_of_none (hb : s.codeRead? s.pc = none) :
    s.fetchOperand A = .error (s.raise (.truncatedInstruction s.ir A)) := by
  simp [State.fetchOperand, State.pastEnd_of_none hb]

theorem State.fetchOperand_of_some (hb : s.codeRead? s.pc = some b) :
    s.fetchOperand A = .ok (b, s.setPc (s.pc + 1)) := by
  simp [State.fetchOperand, State.pastEnd_of_some hb, State.progByte_of_some hb]

/-- The operand fetches, one by one, take the window of as many bytes as there are operands; where the image's end cuts it
short they fail with `pc` past its last byte. -/
theorem State.fetchOperands_eq (s : State) {n : Nat} (hn : n ≤ 2) (A : Byte) :
    s.fetchOperands n A =
      if (s.codeBytes n s.pc).length < n then
        .error ((s.setPc (s.pc + BitVec.ofNat 8 (s.codeBytes n s.pc).length)).raise (.truncatedInstruction s.ir A))
      else .ok ((s.codeBytes n s.pc).getD 0 0, (s.codeBytes n s.pc).getD 1 0, s.setPc (s.pc + BitVec.ofNat 8 n)) := by
  match n, hn with
  | 0, _ => simp [State.fetchOperands, State.codeBytes, State.setPc]
  | n + 1, hn =>
    cases h0 : s.codeRead? s.pc with
    | none => simp [State.fetchOperands, State.fetchOperand_of_none h0, State.codeBytes_end h0, State.setPc]
    | some op1 =>
      have hfetch := State.fetchOperand_of_some (A := A) h0
      rw [State.codeBytes_cons h0]
      match n, hn with
      | 0, _ => simp [State.fetchOperands, hfetch, State.codeBytes]
      | 1, _ =>
        cases h1 : s.codeRead? (s.pc + 1) with
        | none =>
          rw [State.codeBytes_end h1]
          simp only [State.fetchOperands, hfetch, State.fetchOperand_of_none (s := s.setPc (s.pc + 1)) (A := A) h1]
          rfl
        | some op2 =>
          rw [State.codeBytes_cons h1, ← add_one_add_ofNat]
          simp only [State.fetchOperands, hfetch, State.fetchOperand_of_some (s := s.setPc (s.pc + 1)) (A := A) h1]
          rfl

end Pseudocode

/-- An instruction is made of its operands alone: the bytes after them do not matter (R71). -/
theorem ofOperands_take {m : Mnemonic} {bs : List Byte} (h : m.arity ≤ bs.length) :
    Instr.ofOperands m ((bs.take m.arity).getD 0 0) ((bs.take m.arity).getD 1 0) =
      Instr.ofOperands m (bs.getD 0 0) (bs.getD 1 0) := by
  have hops := Instr.ofOperands_operands (Instr.ofOperands m (bs.getD 0 0) (bs.getD 1 0)) []
  rwa [Instr.operands_ofOperands m bs h, Instr.mnemonic_ofOperands, List.append_nil] at hops

/-- After the opcode fetch, the window of an instruction's operands is the beginning of what the step's own window holds
after the opcode. -/
theorem State.codeBytes_operands {s : State} {b : Byte} {tail : List Byte} (hb : s.codeRead? s.pc = some b)
    (hw : s.codeBytes maxLength s.pc = b :: tail) (m : Mnemonic) :
    ({ s with ir := b, pc := s.pc + 1 } : State).codeBytes m.arity (s.pc + 1) = tail.take m.arity := by
  obtain ⟨-, rfl⟩ := List.cons.inj ((State.codeBytes_cons hb).symm.trans hw)
  rw [s.codeBytes_take 2 _ _ m.arity_le_two]
  exact State.codeBytes_congr (by rfl) _ _

/-- Settles O12: each way the phases before execute end is the way the byte-by-byte fetches end. -/
theorem stepRefinesSequencerPseudocode : Obligations.StepRefinesSequencerPseudocode := by
  intro s hr hp
  rcases fetchDecode_cases s with ⟨hb, hf⟩ | ⟨b, hb, hm, hf⟩ | ⟨b, tail, m, hw, hb, hm, ha, hf⟩ |
    ⟨b, tail, m, hw, hb, hm, ha, hf⟩
  · rw [step_of_ended hr hp hf, sequencerStep, if_pos (State.pastEnd_of_none hb)]
  · simp only [step_of_ended hr hp hf, sequencerStep, State.pastEnd_of_some hb, State.progByte_of_some hb, hm]
    rfl
  · have hops : tail.take m.arity = tail := List.take_of_length_le ha.le
    simp only [step_of_ended hr hp hf, sequencerStep, State.pastEnd_of_some hb, State.progByte_of_some hb, hm,
      State.fetchOperands_eq _ m.arity_le_two, State.codeBytes_operands hb hw, hops, if_pos ha, add_one_add_ofNat]
    rfl
  · have hlen : (tail.take m.arity).length = m.arity := List.length_take_of_le ha
    simp only [step_of_run hr hp hf, sequencerStep, State.pastEnd_of_some hb, State.progByte_of_some hb, hm,
      State.fetchOperands_eq _ m.arity_le_two, State.codeBytes_operands hb hw, hlen, lt_irrefl, if_false,
      ofOperands_take ha, State.setPc, add_one_add_ofNat]
    rw [State.consume, List.length_cons, hlen]
    rfl

/-! ### Placing an instruction at `pc` (R230) -/

/-- The image with one byte laid over it, grown with zero bytes as far as that byte. -/
def overlayByte (prog : List Byte) (a b : Byte) : List Byte :=
  (prog ++ List.replicate (a.toNat + 1 - prog.length) 0).set a.toNat b

theorem overlay_cons (prog : List Byte) (a b : Byte) (bs : List Byte) :
    overlay prog a (b :: bs) = overlay (overlayByte prog a b) (a + 1) bs := rfl

theorem getElem?_overlayByte_same (prog : List Byte) (a b : Byte) : (overlayByte prog a b)[a.toNat]? = some b := by
  refine List.getElem?_set_self ?_
  simp only [List.length_append, List.length_replicate]
  omega

theorem getElem?_overlayByte_other {prog : List Byte} {a c v : Byte} (b : Byte) (hc : prog[c.toNat]? = some v)
    (hne : c ≠ a) : (overlayByte prog a b)[c.toNat]? = some v := by
  have hlt : c.toNat < prog.length := (List.getElem?_eq_some_iff.mp hc).1
  rw [overlayByte, List.getElem?_set_ne fun h => hne (BitVec.eq_of_toNat_eq h.symm), List.getElem?_append_left hlt, hc]

/-- Laying bytes over an image keeps the bytes at all other addresses. -/
theorem getElem?_overlay_other {prog bs : List Byte} {a c v : Byte} (hc : prog[c.toNat]? = some v)
    (hne : ∀ k < bs.length, c ≠ a + BitVec.ofNat 8 k) : (overlay prog a bs)[c.toNat]? = some v := by
  induction bs generalizing prog a with
  | nil => exact hc
  | cons b bs ih =>
    rw [overlay_cons]
    refine ih (getElem?_overlayByte_other b hc ?_) fun k hk => ?_
    · simpa using hne 0 (by simp)
    · rw [add_one_add_ofNat]
      exact hne (k + 1) (by simpa using hk)

/-- Up to 255 steps from an address the addresses do not come back to it. -/
theorem self_ne_add_ofNat (a : Byte) {k : Nat} (hpos : 0 < k) (hk : k < 256) : a ≠ a + BitVec.ofNat 8 k := by
  bv_omega

/-- The fetch window from the address where at most 256 bytes are laid holds those bytes. -/
theorem State.codeBytes_of_overlay {s : State} {prog : List Byte} (bs : List Byte) (a : Byte)
    (hs : s.cfg.prog = overlay prog a bs) (hlen : bs.length ≤ 256) : s.codeBytes bs.length a = bs := by
  induction bs generalizing prog a with
  | nil => rfl
  | cons b bs ih =>
    rw [List.length_cons] at hlen ⊢
    rw [overlay_cons] at hs
    have hb : s.codeRead? a = some b := by
      rw [State.codeRead?, hs]
      refine getElem?_overlay_other (getElem?_overlayByte_same prog a b) fun k hk => ?_
      rw [add_one_add_ofNat]
      exact self_ne_add_ofNat a k.succ_pos (by omega)
    rw [State.codeBytes_cons hb, ih (a + 1) hs (by omega)]

/-- The next step fetches the bytes of a placed word. -/
theorem State.codeBytes_withFetchWord (s : State) (nbits w : Nat) :
    (s.withFetchWord nbits w).codeBytes maxLength s.pc = tableWordBytes nbits w := by
  have hlen : (tableWordBytes nbits w).length = maxLength := by simp [tableWordBytes]
  rw [← hlen]
  exact State.codeBytes_of_overlay _ _ rfl (by rw [hlen]; decide)

theorem exists_decode_of_decodeTableWord {nbits w : Nat} {i : Instr} (h : decodeTableWord nbits w = some i) :
    ∃ rest, decode OpcodeMap.default (tableWordBytes nbits w) = .ok (i, rest) := by
  unfold decodeTableWord at h
  split at h
  · next i' rest hd =>
    cases h
    exact ⟨rest, hd⟩
  · cases h

/-- Settles O7: the window at `pc` holds the placed bytes, so the step runs what they decode to. -/
theorem placedWordRuns : Obligations.PlacedWordRuns := by
  intro s nbits w i h
  obtain ⟨rest, hd⟩ := exists_decode_of_decodeTableWord h
  rw [← s.codeBytes_withFetchWord nbits w] at hd
  exact stepRunsDecodedInstruction (s.withFetchWord nbits w) i rest rfl rfl hd

end Sys2Proof.Machine

/-! ## Delivered input and runs (R107, R110, R111, R151) -/

namespace Sys2Proof.Machine

/-! ### A delivery before a step -/

/-- The state with some bytes of the input stream delivered at once. -/
def State.deliver (s : State) (bs : List Byte) : State := { s with input := s.input ++ bs }

section Deliver
variable (s : State) (bs : List Byte)

theorem State.deliver_nil : s.deliver [] = s := by simp [State.deliver]

theorem State.deliver_cons (b : Byte) : s.deliver (b :: bs) = (s.answerInput b).deliver bs := by
  simp [State.deliver, State.answerInput]

theorem State.checkReg_deliver (m : Mnemonic) (i : Byte) :
    (s.deliver bs).checkReg m i = (s.checkReg m i).deliver bs := by
  unfold State.checkReg
  split <;> rfl

theorem State.writeReg_deliver (i v : Byte) : (s.deliver bs).writeReg i v = (s.writeReg i v).deliver bs := by
  unfold State.writeReg
  split <;> rfl

variable {s}

/-- An execute phase that does not end blocked on input does the same with more input delivered. -/
theorem Executes.deliver {t : State} {i : Instr} (h : Executes s i t) (hb : t.blocked = false) :
    Executes (s.deliver bs) i (t.deliver bs) := by
  cases h with
  | nop => exact .nop
  | update hi =>
    rw [← State.writeReg_deliver, ← State.checkReg_deliver]
    exact .update hi
  | store reg addr =>
    have := Executes.store (s := s.deliver bs) reg addr
    rwa [State.checkReg_deliver] at this
  | readTakes reg v hv =>
    have hlt : s.inPos < s.input.length := (List.getElem?_eq_some_iff.mp hv).1
    rw [← State.writeReg_deliver, ← State.checkReg_deliver]
    exact .readTakes reg v ((List.getElem?_append_left hlt).trans hv)
  | readWaits reg hl => simp [State.blocked, hl] at hb
  | write reg =>
    have := Executes.write (s := s.deliver bs) reg
    rwa [State.checkReg_deliver] at this
  | jmp addr => exact .jmp addr
  | callPushes addr hf => exact .callPushes addr hf
  | callOverflows addr hf => exact .callOverflows addr hf
  | retPops target rest hs => exact .retPops target rest hs
  | retUnderflows hs => exact .retUnderflows hs
  | beqTaken addr hx => exact .beqTaken addr hx
  | beqFalls addr hx => exact .beqFalls addr hx
  | bneTaken addr hx => exact .bneTaken addr hx
  | bneFalls addr hx => exact .bneFalls addr hx
  | int => exact .int

/-- The phases before execute do not look at the input. -/
theorem fetchDecode_deliver : fetchDecode (s.deliver bs) = (fetchDecode s).map (State.deliver · bs) := by
  have hw : (s.deliver bs).codeBytes maxLength (s.deliver bs).pc = s.codeBytes maxLength s.pc :=
    State.codeBytes_congr rfl _ _
  have hom : (s.deliver bs).cfg.opcodeOf = s.cfg.opcodeOf := rfl
  simp only [fetchDecode, hw, hom]
  rcases decode s.cfg.opcodeOf (s.codeBytes maxLength s.pc) with (_ | _ | _) | _ <;> rfl

/-- A step that does not end blocked on input does the same with more input delivered. -/
theorem step_deliver {t : State} (h : step s = .next t) (hb : t.blocked = false) :
    step (s.deliver bs) = .next (t.deliver bs) := by
  have hf := fetchDecode_deliver (s := s) bs
  rcases step_cases s with ⟨hr, e⟩ | ⟨reg, hr, hp, e⟩ | ⟨u, hr, hp, hu, e⟩ | ⟨i, u, hr, hp, hu, e⟩ <;> rw [e] at h
  · cases h
    exact step_of_halted (s := s.deliver bs) hr
  · rw [step_of_waiting (s := s.deliver bs) hr hp]
    exact ((exec_eq_next_iff (i := .read reg)).mp h |>.deliver bs hb).exec_eq
  · cases h
    rw [hu] at hf
    exact step_of_ended (s := s.deliver bs) hr hp hf
  · rw [hu] at hf
    rw [step_of_run (s := s.deliver bs) hr hp hf]
    exact ((exec_eq_next_iff.mp h).deliver bs hb).exec_eq

end Deliver

/-- Settles O49: an answer is the delivery of one byte. -/
theorem inputDeliveryTimeIrrelevant : Obligations.InputDeliveryTimeIrrelevant := fun _ _ b h hb => step_deliver [b] h hb

/-! ### A run and its stream -/

theorem State.not_blocked_of_lt {s : State} (h : s.inPos < s.input.length) : s.blocked = false := by
  simp [State.blocked, h]

/-- An execute phase with a byte left to read does not end blocked: READ takes the byte. -/
theorem Executes.not_blocked {s t : State} {i : Instr} (h : Executes s i t) (hl : s.inPos < s.input.length) :
    t.blocked = false := by
  cases h with
  | readWaits reg hle => omega
  | readTakes => simp [State.blocked]
  | _ => exact State.not_blocked_of_lt (by simpa using hl)

theorem Steps.not_blocked {s t : State} (h : Steps s t) (hl : s.inPos < s.input.length) : t.blocked = false := by
  cases h with
  | waiting _ _ he => exact he.not_blocked hl
  | executes _ _ _ _ _ _ he => exact he.not_blocked hl
  | _ => exact State.not_blocked_of_lt hl

/-- A step consumes no byte that was not delivered. -/
theorem Steps.inPos_le {s t : State} (h : Steps s t) (hs : s.inPos ≤ s.input.length) : t.inPos ≤ t.input.length := by
  cases h with
  | waiting _ _ he => exact he.inPos_le hs
  | executes _ _ _ _ _ _ he => exact he.inPos_le hs
  | _ => exact hs

theorem State.inPos_le_supply (src : InputSource) {s : State} (hs : s.inPos ≤ s.input.length) :
    (s.supply src).inPos ≤ (s.supply src).input.length := by
  rcases s.supply_cases src with ⟨b, _, _, _, e⟩ | ⟨e, _⟩ <;> rw [e]
  · exact hs.trans (by simp)
  · exact hs

theorem InputSource.bytes_of_none {src : InputSource} {k : Nat} (h : src k = none) (n : Nat) : src.bytes k n = [] := by
  cases n <;> simp [InputSource.bytes, h]

theorem InputSource.bytes_succ_of_some {src : InputSource} {k : Nat} {b : Byte} (h : src k = some b) (n : Nat) :
    src.bytes k (n + 1) = b :: src.bytes (k + 1) n := by
  simp [InputSource.bytes, h]

/-- No step stops the model. -/
theorem exists_step (s : State) : ∃ t, step s = .next t := by
  rcases step_cases s with ⟨_, e⟩ | ⟨reg, _, _, e⟩ | ⟨t, _, _, _, e⟩ | ⟨i, t, _, _, _, e⟩ <;> rw [e]
  · exact ⟨s, rfl⟩
  · exact (exec_executes (.read reg) s).imp fun _ => And.left
  · exact ⟨t, rfl⟩
  · exact (exec_executes i t).imp fun _ => And.left

/-- A step of a run is a step of the machine with bytes of the stream delivered beforehand; those that the source did not
deliver for this step are then there for the next. -/
theorem step_deliver_bytes {src : InputSource} {s t : State} (hs : s.inPos ≤ s.input.length)
    (h : step (s.supply src) = .next t) (m : Nat) :
    ∃ m', m ≤ m' ∧
      step (s.deliver (src.bytes s.input.length (m + 1))) = .next (t.deliver (src.bytes t.input.length m')) := by
  rcases s.supply_cases src with ⟨b, _, hl, hb, e⟩ | ⟨e, hnone⟩ <;> rw [e] at h <;> rw [(steps_of_step h).input_eq]
  · refine ⟨m, le_rfl, ?_⟩
    rw [InputSource.bytes_succ_of_some hb, State.deliver_cons, State.answerInput_input, List.length_append]
    have hlt : (s.answerInput b).inPos < (s.answerInput b).input.length := by
      simp only [State.answerInput_inPos, State.answerInput_input, List.length_append, List.length_singleton]
      omega
    exact step_deliver _ h ((steps_of_step h).not_blocked hlt)
  · refine ⟨m + 1, m.le_succ, ?_⟩
    by_cases hr : s.run = .running
    · by_cases hl : s.input.length ≤ s.inPos
      · rw [InputSource.bytes_of_none (hnone hr hl), State.deliver_nil, State.deliver_nil, h]
      · exact step_deliver _ h ((steps_of_step h).not_blocked (Nat.not_le.mp hl))
    · cases (step_of_halted hr).symm.trans h
      exact step_of_halted (s := s.deliver _) hr

theorem runWith_succ {src : InputSource} {n : Nat} {s t : State} (h : step (s.supply src) = .next t) :
    runWith src (n + 1) s = runWith src n t := by
  simp only [runWith, h]

/-- n steps of a run are n steps of the machine with any number of bytes from n on delivered beforehand. -/
theorem runWith_eq_runFor_deliver (src : InputSource) {n m : Nat} (hnm : n ≤ m) {s : State}
    (hs : s.inPos ≤ s.input.length) :
    mapNext State.withoutInput (runWith src n s) =
      mapNext State.withoutInput (runFor n (s.deliver (src.bytes s.input.length m))) := by
  induction n generalizing s m with
  | zero => rfl
  | succ n ih =>
    obtain ⟨m, rfl⟩ : ∃ k, m = k + 1 := Nat.exists_eq_add_one.mpr (by omega)
    obtain ⟨t, ht⟩ := exists_step (s.supply src)
    obtain ⟨m', hm, hstep⟩ := step_deliver_bytes hs ht m
    rw [runWith_succ ht, runFor_succ hstep]
    exact ih (by omega) ((steps_of_step ht).inPos_le (State.inPos_le_supply src hs))

/-- Settles O51. -/
theorem runDependsOnStreamOnly : Obligations.RunDependsOnStreamOnly :=
  fun src _ _ hs => runWith_eq_runFor_deliver src le_rfl hs

/-! ### How a run ends (R28, R110) -/

section Ends
variable {src : InputSource} {s t u : State} {n m : Nat}

/-- The engine has halted or is stuck in a READ for ever: a run goes no further. -/
def State.Ended (src : InputSource) (s : State) : Prop := s.run ≠ .running ∨ s.Starved src

theorem State.Ended.step_supply (h : s.Ended src) : step (s.supply src) = .next s :=
  h.elim step_supply_of_halted step_supply_of_starved

theorem State.exists_reaches (src : InputSource) (s : State) (n : Nat) : ∃ t, s.Reaches src n t := by
  induction n generalizing s with
  | zero => exact ⟨s, rfl⟩
  | succ n ih =>
    obtain ⟨u, hu⟩ := exists_step (s.supply src)
    exact (ih u).imp fun _ => (State.reaches_succ hu).mpr

/-- A run is deterministic. -/
theorem State.Reaches.unique (ht : s.Reaches src n t) (hu : s.Reaches src n u) : t = u :=
  Host.Outcome.next.inj (ht.symm.trans hu)

theorem State.Reaches.trans (ht : s.Reaches src n t) (hu : t.Reaches src m u) : s.Reaches src (n + m) u := by
  induction n generalizing s with
  | zero =>
    obtain rfl := State.reaches_zero.mp ht
    rwa [Nat.zero_add]
  | succ n ih =>
    obtain ⟨v, hv⟩ := exists_step (s.supply src)
    rw [Nat.succ_add]
    exact (State.reaches_succ hv).mpr (ih ((State.reaches_succ hv).mp ht))

/-- A run that has ended stays where it is. -/
theorem State.Reaches.of_ended (h : s.Reaches src n t) (ht : t.Ended src) (hm : n ≤ m) : s.Reaches src m t := by
  have hstay := h.trans (State.reaches_of_fixed ht.step_supply (n := m - n))
  rwa [Nat.add_sub_cancel' hm] at hstay

/-- A run ends in at most one state. -/
theorem State.Reaches.ended_unique (ht : s.Reaches src n t) (het : t.Ended src) (hu : s.Reaches src m u)
    (heu : u.Ended src) : t = u :=
  (ht.of_ended het (le_max_left n m)).unique (hu.of_ended heu (le_max_right n m))

/-- What the end of a run is can be read off the state it ends in. -/
theorem State.Reaches.exists_iff_of_ended {P : State → Prop} (h : s.Reaches src n t) (ht : t.Ended src)
    (hP : ∀ u, P u → u.Ended src) : (∃ m u, s.Reaches src m u ∧ P u) ↔ P t := by
  constructor
  · rintro ⟨m, u, hu, hPu⟩
    rwa [h.ended_unique ht hu (hP u hPu)]
  · exact fun hPt => ⟨n, t, h, hPt⟩

theorem State.runsForever_iff : s.RunsForever src ↔ ¬∃ n t, s.Reaches src n t ∧ t.Ended src := by
  constructor
  · rintro h ⟨n, t, ht, hend⟩
    obtain ⟨u, hu, hrun, hstarved⟩ := h n
    rw [ht.unique hu] at hend
    exact hend.elim (· hrun) hstarved
  · intro h n
    obtain ⟨t, ht⟩ := s.exists_reaches src n
    have hend : ¬t.Ended src := fun he => h ⟨n, t, ht, he⟩
    exact ⟨t, ht, by_contra fun hrun => hend (.inl hrun), fun hst => hend (.inr hst)⟩

end Ends

/-- Settles O52: a run that reaches an ended state has the way of that state, and one that reaches none goes on forever. -/
theorem runEndsInExactlyOneWay : Obligations.RunEndsInExactlyOneWay := by
  intro src s _
  have hendN (u : State) (hu : u.run = .haltedNormal) : u.Ended src := .inl (by simp [hu])
  have hendE (u : State) (hu : u.run = .haltedError) : u.Ended src := .inl (by simp [hu])
  have hendS (u : State) (hu : u.Starved src) : u.Ended src := .inr hu
  by_cases h : ∃ n t, s.Reaches src n t ∧ t.Ended src
  · have hforever : ¬s.RunsForever src := fun hf => State.runsForever_iff.mp hf h
    obtain ⟨n, t, ht, hend⟩ := h
    have hnormal : s.EndsNormally src ↔ t.run = .haltedNormal := ht.exists_iff_of_ended hend hendN
    have herror : s.EndsInError src ↔ t.run = .haltedError := ht.exists_iff_of_ended hend hendE
    have hstuck : s.StuckInRead src ↔ t.Starved src := ht.exists_iff_of_ended hend hendS
    have hrunning : t.Starved src → t.run = .running := And.left
    simp only [hnormal, herror, hstuck, hforever]
    cases hr : t.run with
    | running => simp [hend.resolve_left (absurd hr)]
    | haltedNormal | haltedError => simp [mt hrunning, hr]
  · have hnot {P : State → Prop} (hP : ∀ u, P u → u.Ended src) : ¬∃ n u, s.Reaches src n u ∧ P u :=
      fun ⟨n, u, hu, hPu⟩ => h ⟨n, u, hu, hP u hPu⟩
    exact .inr (.inr (.inl ⟨hnot hendN, hnot hendE, State.runsForever_iff.mpr h, hnot hendS⟩))

end Sys2Proof.Machine

/-! ## Data movement: NOP, LOAD, STORE, and what the register forms leave unchanged (R120 to R122, R131) -/

namespace Sys2Proof.Machine

/-- NOP's execute phase is the identity (R120). -/
theorem exec_nop (s : State) : exec .nop s = .next s := rfl

/-- Settles O15: all that a step with NOP changes is what the fetch before it changed. -/
theorem nopChangesNothing : Obligations.NopChangesNothing := fun s => ⟨rfl, exec_nop s⟩

/-! ### The index report, and the instructions that update a register -/

/-- An index of 4 up is reported with the address of the instruction that `pc` stands just past (R108). -/
theorem State.checkReg_of_ge_at {s : State} {m : Mnemonic} {i A : Byte} (h : 4 ≤ i.toNat)
    (hpc : s.pc = A + BitVec.ofNat 8 m.length) :
    s.checkReg m i = { s with diag := s.diag ++ [.invalidIndex i A] } := by
  rw [State.checkReg_of_ge s m h, State.origin_eq hpc, State.report]

section RegisterUpdate
variable {i : Instr} {reg : Byte} {f : Byte → Byte}

/-- The register-updating instructions have two operands. -/
theorem length_of_registerUpdate (hi : registerUpdate? i = some (reg, f)) : i.mnemonic.length = 3 := by
  cases i <;> cases hi <;> rfl

/-- A register that exists takes its new value, and nothing else changes. -/
theorem exec_registerUpdate_of_lt (hi : registerUpdate? i = some (reg, f)) (s : State) (h : reg.toNat < 4) :
    exec i s = .next { s with x := s.x.set reg.toNat (f s.x[reg.toNat]) } := by
  rw [exec_of_registerUpdate hi, State.checkReg_of_lt _ _ h, State.writeReg_of_lt _ _ h, State.readReg_of_lt _ h]

/-- An index of 4 up is reported, and nothing else changes. -/
theorem exec_registerUpdate_of_ge (hi : registerUpdate? i = some (reg, f)) {s : State} {A : Byte}
    (h : 4 ≤ reg.toNat) (hpc : s.pc = A + 3) :
    exec i s = .next { s with diag := s.diag ++ [.invalidIndex reg A] } := by
  have hpc' : s.pc = A + BitVec.ofNat 8 i.mnemonic.length := by simpa [length_of_registerUpdate hi] using hpc
  rw [exec_of_registerUpdate hi, State.checkReg_of_ge_at h hpc', State.writeReg_of_ge _ _ h]

end RegisterUpdate

/-- LOAD, ADD, SUB, AND, OR and XOR update the register they name. -/
theorem exists_registerUpdate {reg val : Byte} {i : Instr}
    (h : i ∈ [Instr.load reg val, .add reg val, .sub reg val, .and reg val, .or reg val, .xor reg val]) :
    ∃ f, registerUpdate? i = some (reg, f) := by
  simp only [List.mem_cons, List.not_mem_nil, or_false] at h
  rcases h with rfl | rfl | rfl | rfl | rfl | rfl <;> exact ⟨_, rfl⟩

/-- Settles O16: LOAD is the register update whose new value is the immediate. -/
theorem loadWritesImmediate : Obligations.LoadWritesImmediate := fun s reg val _ hpc =>
  have hi : registerUpdate? (.load reg val) = some (reg, fun _ => val) := rfl
  ⟨rfl, exec_registerUpdate_of_lt hi s, fun h => exec_registerUpdate_of_ge hi h hpc⟩

/-- Settles O32: checking the index touches the log alone and only for an index of 4 up; the write reaches only the named
register. -/
theorem registerFormsFrame : Obligations.RegisterFormsFrame := by
  intro reg val i s t hmem ht
  obtain ⟨f, hi⟩ := exists_registerUpdate hmem
  obtain rfl : (s.checkReg i.mnemonic reg).writeReg reg (f (s.readReg reg)) = t := by
    simpa [exec_of_registerUpdate hi] using ht
  have hdiag (h : reg.toNat < 4) : (s.checkReg i.mnemonic reg).diag = s.diag := by rw [State.checkReg_of_lt s _ h]
  refine ⟨fun j hj => ?_, by simpa using hdiag⟩
  rw [State.writeReg_x_other _ _ _ j hj, State.checkReg_x]

/-! ### STORE (R122) -/

/-- From a register that exists STORE writes its value to the addressed cell, and nothing else changes. -/
theorem exec_store_of_lt (s : State) {reg : Byte} (addr : Byte) (h : reg.toNat < 4) :
    exec (.store reg addr) s = .next { s with mem := s.mem.write addr.toNat s.x[reg.toNat] } := by
  rw [(Executes.store reg addr).exec_eq, State.checkReg_of_lt _ _ h, State.readReg_of_lt _ h, State.memWrite]

/-- From an index of 4 up STORE writes the substituted zero, with one report (decision D5). -/
theorem exec_store_of_ge {s : State} {reg A : Byte} (addr : Byte) (h : 4 ≤ reg.toNat) (hpc : s.pc = A + 3) :
    exec (.store reg addr) s =
      .next { s with mem := s.mem.write addr.toNat 0, diag := s.diag ++ [.invalidIndex reg A] } := by
  rw [(Executes.store reg addr).exec_eq, State.checkReg_of_ge_at h hpc, State.readReg_of_ge _ h, State.memWrite]

/-- Settles O17: the cell reads back what was written, since canonical memory lists an address once; the other cells keep
their values. -/
theorem storeWritesCell : Obligations.StoreWritesCell := by
  intro s reg addr A hwf hpc
  have hsame (v : Byte) : (s.mem.write addr.toNat v).read addr.toNat = v := Memory.read_write_same _ _ v hwf
  have hother (v : Byte) : ∀ a, a ≠ addr.toNat → (s.mem.write addr.toNat v).read a = s.mem.read a :=
    fun a => Memory.read_write_other _ _ a v
  exact ⟨rfl, fun h => ⟨_, exec_store_of_lt s addr h, rfl, hsame _, hother _⟩,
    fun h => ⟨_, exec_store_of_ge addr h hpc, rfl, hsame _, hother _⟩⟩

/-- Settles O33: beside the index check STORE writes one data cell, which leaves every other address alone. -/
theorem storeFrame : Obligations.StoreFrame := by
  intro reg addr s t ht
  obtain rfl : (s.checkReg .store reg).memWrite addr (s.readReg reg) = t := by
    simpa [(Executes.store reg addr).exec_eq] using ht
  have hdiag (h : reg.toNat < 4) : (s.checkReg .store reg).diag = s.diag := by rw [State.checkReg_of_lt s _ h]
  refine ⟨fun a ha => ?_, by simpa using hdiag⟩
  rw [State.memWrite_mem, State.checkReg_mem, Memory.read_write_other _ _ _ _ ha]

end Sys2Proof.Machine

/-! ## The byte ALU: ADD, SUB, AND, OR and XOR (R130 to R136) -/

namespace Sys2Proof.Machine

/-! ### What the ALU computes, in integers and in bits (R130) -/

theorem aluAdd_eq_ofNat (a b : Byte) : aluAdd a b = BitVec.ofNat 8 ((a.toNat + b.toNat) % 256) :=
  BitVec.eq_of_toNat_eq (by simp [aluAdd])

theorem aluSub_eq_ofInt (a b : Byte) : aluSub a b = BitVec.ofInt 8 (((a.toNat : Int) - (b.toNat : Int)) % 256) := by
  apply BitVec.eq_of_toInt_eq
  rw [aluSub, BitVec.toInt_sub, BitVec.toInt_ofInt, BitVec.toInt_eq_toNat_bmod, BitVec.toInt_eq_toNat_bmod,
    Int.bmod_sub_bmod, Int.sub_bmod_bmod]
  exact (Int.emod_bmod _ 256).symm

@[simp] theorem getLsbD_aluAnd (a b : Byte) (k : Nat) : (aluAnd a b).getLsbD k = (a.getLsbD k && b.getLsbD k) :=
  BitVec.getLsbD_and

@[simp] theorem getLsbD_aluOr (a b : Byte) (k : Nat) : (aluOr a b).getLsbD k = (a.getLsbD k || b.getLsbD k) :=
  BitVec.getLsbD_or

@[simp] theorem getLsbD_aluXor (a b : Byte) (k : Nat) :
    (aluXor a b).getLsbD k = Bool.xor (a.getLsbD k) (b.getLsbD k) :=
  BitVec.getLsbD_xor

/-! ### The instructions: each is a register update by its ALU function (R131) -/

/-- Settles O18: ADD is the register update by `aluAdd`, the sum modulo 256. -/
theorem addModulo256 : Obligations.AddModulo256 := by
  intro s reg val A hpc
  have hi : registerUpdate? (.add reg val) = some (reg, fun old => aluAdd old val) := rfl
  refine ⟨rfl, fun h => ?_, fun h => exec_registerUpdate_of_ge hi h hpc⟩
  rw [exec_registerUpdate_of_lt hi s h, aluAdd_eq_ofNat]

/-- Settles O19: SUB is the register update by `aluSub`, the old value being the minuend. -/
theorem subModulo256 : Obligations.SubModulo256 := by
  intro s reg val A hpc
  have hi : registerUpdate? (.sub reg val) = some (reg, fun old => aluSub old val) := rfl
  refine ⟨rfl, fun h => ?_, fun h => exec_registerUpdate_of_ge hi h hpc⟩
  rw [exec_registerUpdate_of_lt hi s h, aluSub_eq_ofInt]

/-- Settles O20: AND is the register update by `aluAnd`, whose bits are the conjunctions. -/
theorem andBitwise : Obligations.AndBitwise := fun s reg val _ hpc =>
  have hi : registerUpdate? (.and reg val) = some (reg, fun old => aluAnd old val) := rfl
  ⟨rfl, fun h => ⟨_, exec_registerUpdate_of_lt hi s h, fun k _ => getLsbD_aluAnd _ val k⟩,
    fun h => exec_registerUpdate_of_ge hi h hpc⟩

/-- Settles O21: OR is the register update by `aluOr`, whose bits are the disjunctions. -/
theorem orBitwise : Obligations.OrBitwise := fun s reg val _ hpc =>
  have hi : registerUpdate? (.or reg val) = some (reg, fun old => aluOr old val) := rfl
  ⟨rfl, fun h => ⟨_, exec_registerUpdate_of_lt hi s h, fun k _ => getLsbD_aluOr _ val k⟩,
    fun h => exec_registerUpdate_of_ge hi h hpc⟩

/-- Settles O22: XOR is the register update by `aluXor`, whose bits are the exclusive disjunctions. -/
theorem xorBitwise : Obligations.XorBitwise := fun s reg val _ hpc =>
  have hi : registerUpdate? (.xor reg val) = some (reg, fun old => aluXor old val) := rfl
  ⟨rfl, fun h => ⟨_, exec_registerUpdate_of_lt hi s h, fun k _ => getLsbD_aluXor _ val k⟩,
    fun h => exec_registerUpdate_of_ge hi h hpc⟩

end Sys2Proof.Machine

/-! ## The channels: READ, WRITE, and READ's wait (R150 to R152, R217) -/

namespace Sys2Proof.Machine

/-! ### READ and WRITE, one equation for each way they go -/

section Channels
variable {s : State} {reg A v : Byte}

/-- With its byte delivered READ counts it and puts it in a register that exists. -/
theorem exec_read_of_lt (hv : s.input[s.inPos]? = some v) (h : reg.toNat < 4) :
    exec (.read reg) s = .next { s with x := s.x.set reg.toNat v, inPos := s.inPos + 1, pendingRead := none } := by
  rw [(Executes.readTakes reg v hv).exec_eq, State.checkReg_of_lt _ _ h, State.writeReg_of_lt _ _ h]

/-- With its byte delivered READ counts it, and for an index of 4 up discards it with one report (decision D6). -/
theorem exec_read_of_ge (hv : s.input[s.inPos]? = some v) (h : 4 ≤ reg.toNat) (hpc : s.pc = A + 2) :
    exec (.read reg) s = .next { s with
      inPos := s.inPos + 1, pendingRead := none, diag := s.diag ++ [.invalidIndex reg A] } := by
  rw [(Executes.readTakes reg v hv).exec_eq, State.checkReg_of_ge_at (A := A) h hpc, State.writeReg_of_ge _ _ h]

/-- WRITE emits a register that exists, and nothing else changes. -/
theorem exec_write_of_lt (h : reg.toNat < 4) :
    exec (.write reg) s = .next { s with out := s.out ++ [s.x[reg.toNat]] } := by
  rw [(Executes.write reg).exec_eq, State.checkReg_of_lt _ _ h, State.readReg_of_lt _ h, State.outEmit]

/-- For an index of 4 up WRITE emits the substituted zero, with one report. -/
theorem exec_write_of_ge (h : 4 ≤ reg.toNat) (hpc : s.pc = A + 2) :
    exec (.write reg) s = .next { s with out := s.out ++ [0], diag := s.diag ++ [.invalidIndex reg A] } := by
  rw [(Executes.write reg).exec_eq, State.checkReg_of_ge_at (A := A) h hpc, State.readReg_of_ge _ h, State.outEmit]

end Channels

/-- Settles O23. -/
theorem readTakesNextInput : Obligations.ReadTakesNextInput := fun _ reg _ hpc =>
  ⟨rfl, fun _ hv => ⟨exec_read_of_lt hv, fun h => exec_read_of_ge hv h hpc⟩,
    fun hl => (Executes.readWaits reg hl).exec_eq⟩

/-- Settles O24. -/
theorem writeEmitsRegister : Obligations.WriteEmitsRegister := fun _ _ _ hpc =>
  ⟨rfl, exec_write_of_lt, fun h => exec_write_of_ge h hpc⟩

/-- A check of a register that exists leaves the log. -/
theorem State.checkReg_diag_of_lt (s : State) (m : Mnemonic) {i : Byte} (h : i.toNat < 4) :
    (s.checkReg m i).diag = s.diag := by
  rw [State.checkReg_of_lt s m h]

/-- Settles O34: READ and WRITE change what an index check, a register write, and the count of a byte, the mark of a wait
or the emission of a byte change. -/
theorem channelFormsFrame : Obligations.ChannelFormsFrame := by
  intro reg i s t hi ht
  have hx := (exec_eq_next_iff.mp ht).x_eq
  have hi' : i = .read reg ∨ i = .write reg := by simpa using hi
  rcases hi' with rfl | rfl
  · have hx' (j : Fin 4) (hj : j.val ≠ reg.toNat) : t.x[j] = s.x[j] := hx j (by rintro _ ⟨⟩; exact hj)
    rcases execRead_cases reg s with ⟨v, _, e⟩ | ⟨_, e⟩ <;> cases e.symm.trans ht
    · simpa +contextual [State.checkReg_diag_of_lt] using hx'
    · simp
  · cases (Executes.write reg).exec_eq.symm.trans ht
    simp +contextual [State.checkReg_diag_of_lt]

/-! ### READ's wait -/

/-- An execute phase leaves a READ waiting that did not wait before only if it is that READ and finds no byte. -/
theorem Executes.waits {s t : State} {i : Instr} {reg : Byte} (h : Executes s i t) (hs : s.pendingRead = none)
    (ht : t.pendingRead = some reg) : i = .read reg ∧ t = s.await reg ∧ t.blocked = true := by
  cases h with
  | readWaits reg' hl =>
    obtain rfl : reg' = reg := by simpa using ht
    exact ⟨rfl, rfl, by simp [State.blocked, hl]⟩
  | _ => simp [hs] at ht

/-- The fetches of a whole instruction put its opcode in `ir` and advance `pc` by its length (R102, R104). -/
theorem State.consume_instruction {s : State} {b : Byte} {tail : List Byte} {m : Mnemonic}
    (hm : s.cfg.opcodeOf.mnemonicOf? b = some m) (ha : m.arity ≤ tail.length) :
    s.consume (b :: tail.take m.arity) =
      { s with ir := s.cfg.opcodeOf.of m, pc := s.pc + BitVec.ofNat 8 m.length } := by
  rw [State.consume, List.length_cons, List.length_take_of_le ha, OpcodeMap.of_mnemonicOf? hm, Mnemonic.length,
    Nat.add_comm]
  rfl

/-- Settles O47: the wait can only come from the execute phase of READ, whose fetches are two bytes. -/
theorem onlyReadSuspends : Obligations.OnlyReadSuspends := by
  intro s t reg hr hp h ht
  cases steps_of_step h with
  | halted hr' => exact absurd hr hr'
  | waiting _ hp' => cases hp.symm.trans hp'
  | haltsNormally | fetchFails => cases hp.symm.trans ht
  | @executes b tail m _ _ _ _ _ hm ha he =>
    obtain ⟨hi, rfl, hb⟩ := he.waits hp ht
    obtain rfl : m = .read := (Instr.mnemonic_ofOperands m _ _).symm.trans (congrArg Instr.mnemonic hi)
    refine ⟨?_, hb⟩
    rw [State.consume_instruction hm ha]
    rfl

/-- A READ that waits already waits on as the same state. -/
theorem State.await_of_pendingRead {s : State} {reg : Byte} (hp : s.pendingRead = some reg) : s.await reg = s := by
  rw [State.await, ← hp]

/-- Settles O48: a step of a waiting engine is the execute phase of the READ that waits, and the answer is the byte that it
takes. -/
theorem answerEndsReadWait : Obligations.AnswerEndsReadWait := by
  intro s reg b hr hp hl
  have hstep : step (s.answerInput b) = exec (.read reg) (s.answerInput b) := step_of_waiting (s := s.answerInput b) hr hp
  have hv : (s.answerInput b).input[(s.answerInput b).inPos]? = some b := by simp [← hl]
  have hpc : (s.answerInput b).pc = s.pc - 2 + 2 := (BitVec.sub_add_cancel s.pc 2).symm
  refine ⟨?_, fun h => hstep.trans (exec_read_of_lt hv h), fun h => hstep.trans (exec_read_of_ge hv h hpc)⟩
  calc step s
      = exec (.read reg) s := step_of_waiting hr hp
    _ = .next (s.await reg) := (Executes.readWaits reg hl.le).exec_eq
    _ = .next s := by rw [State.await_of_pendingRead hp]

/-! ### The bytes that the READs of a run take (R35, R150, R151) -/

/-- From `s` to `t` one delivered byte is consumed, b: the READ in `ir` whose operand stands before `pc` takes it. -/
def State.TakesByte (s : State) (b : Byte) (t : State) : Prop :=
  s.input[s.inPos]? = some b ∧ t.inPos = s.inPos + 1 ∧ t.ir = s.cfg.opcodeOf.read ∧
    ∃ reg : Byte, s.codeRead? (t.pc - 1) = some reg ∧
      (∀ h : reg.toNat < 4, t.x = s.x.set reg.toNat b) ∧ (4 ≤ reg.toNat → t.x = s.x)

/-- The operand of a READ that has been fetched is the byte before `pc`. -/
theorem State.ReadFetched.codeRead? {s : State} {reg : Byte} (h : s.ReadFetched (.read reg)) :
    s.codeRead? (s.pc - 1) = some reg := by
  have hcode := (h reg rfl).2
  have hpc : s.pc - 2 + BitVec.ofNat 8 1 = s.pc - 1 := by bv_omega
  have hin : s.InWindow 2 (s.pc - 2) 1 := by
    by_contra hout
    have hnone := (s.getElem?_codeBytes 2 (s.pc - 2) 1).2 hout
    rw [hcode] at hnone
    cases hnone
  rw [State.codeRead?, ← hpc, ← (s.getElem?_codeBytes 2 (s.pc - 2) 1).1 hin, hcode]
  rfl

/-- An execute phase consumes nothing, or it is a READ's and takes a byte. -/
theorem Executes.inPos_eq_or_takesByte {s t : State} {i : Instr} (h : Executes s i t) (hf : s.ReadFetched i) :
    t.inPos = s.inPos ∨ ∃ b, s.TakesByte b t := by
  cases h with
  | readTakes reg b hv =>
    refine .inr ⟨b, hv, by simp, by simpa using (hf reg rfl).1, reg, by simpa using hf.codeRead?, fun hlt => ?_,
      fun hge => ?_⟩
    · rw [State.writeReg_of_lt _ _ hlt, State.checkReg_x]
    · rw [State.writeReg_of_ge _ _ hge, State.checkReg_x]
  | _ => exact .inl (by simp)

/-- A READ that waits in a state whose wait matches the code has been fetched. -/
theorem State.pendingMatchesCode.readFetched {s : State} {reg : Byte} (h : s.pendingMatchesCode)
    (hp : s.pendingRead = some reg) : s.ReadFetched (.read reg) := by
  rintro _ ⟨⟩
  exact (h reg hp).2

/-- A step consumes nothing or completes a READ, which takes a byte. -/
theorem Steps.inPos_eq_or_takesByte {s t : State} (h : Steps s t) (hs : s.pendingMatchesCode) :
    t.inPos = s.inPos ∨ ∃ b, s.TakesByte b t := by
  cases h with
  | waiting _ hp he => exact he.inPos_eq_or_takesByte (hs.readFetched hp)
  | executes _ _ hw _ hm ha he => exact he.inPos_eq_or_takesByte (State.readFetched_consume hw hm ha)
  | _ => exact .inl rfl

/-- The delivered input is the beginning of the source's stream. -/
def State.DeliveredFrom (src : InputSource) (s : State) : Prop :=
  ∀ (k : Nat) (b : Byte), s.input[k]? = some b → src k = some b

/-- What the source delivers is the next byte of its stream. -/
theorem State.DeliveredFrom.supply {src : InputSource} {s : State} (h : s.DeliveredFrom src) :
    (s.supply src).DeliveredFrom src := by
  rcases s.supply_cases src with ⟨b, _, _, hb, e⟩ | ⟨e, _⟩ <;> rw [e]
  · intro k c hc
    rw [State.answerInput_input, List.getElem?_append] at hc
    split at hc
    · exact h k c hc
    · obtain ⟨hk, rfl⟩ : k - s.input.length = 0 ∧ b = c := by simpa [List.getElem?_singleton] using hc
      obtain rfl : k = s.input.length := by omega
      exact hb
  · exact h

theorem State.Inv.supply {s : State} (h : s.Inv) (src : InputSource) : (s.supply src).Inv := by
  rcases s.supply_cases src with ⟨b, _, _, _, e⟩ | ⟨e, _⟩ <;> rw [e]
  · exact State.inv_answerInput h b
  · exact h

/-- What holds all along a run from reset with these parameters and this source. -/
structure State.InRun (cfg : Config) (src : InputSource) (s : State) : Prop where
  cfg : s.cfg = cfg
  inv : s.Inv
  delivered : s.DeliveredFrom src

theorem State.InRun.supply {cfg : Config} {src : InputSource} {s : State} (h : s.InRun cfg src) :
    (s.supply src).InRun cfg src where
  cfg := (s.supply_cfg src).trans h.cfg
  inv := h.inv.supply src
  delivered := h.delivered.supply

theorem State.InRun.step {cfg : Config} {src : InputSource} {s t : State} (h : s.InRun cfg src)
    (hst : step s = .next t) : t.InRun cfg src where
  cfg := (steps_of_step hst).cfg_eq.trans h.cfg
  inv := stepKeepsInvariant s t h.inv hst
  delivered := by
    rw [State.DeliveredFrom, (steps_of_step hst).input_eq]
    exact h.delivered

theorem State.inRun_of_reaches {cfg : Config} {src : InputSource} {n : Nat} {t : State}
    (h : (State.resetWith cfg []).Reaches src n t) : t.InRun cfg src :=
  h.keeps (fun _ hs => hs.supply) (fun _ _ hs hst => hs.step hst) ⟨rfl, State.inv_resetWith cfg [], by rintro _ _ ⟨⟩⟩

/-- A step that ends blocked starts in a Running state: a state with the invariant waits only while it runs. -/
theorem Steps.running_of_blocked {s t : State} (h : Steps s t) (hs : s.Inv) (hb : t.blocked = true) : s.run = .running := by
  cases h with
  | halted =>
    obtain ⟨⟨reg, hp⟩, _⟩ : (∃ reg, s.pendingRead = some reg) ∧ s.input.length ≤ s.inPos := by
      simpa [State.blocked, Option.isSome_iff_exists] using hb
    exact (hs.pending reg hp).1
  | waiting hr | haltsNormally hr | fetchFails hr | executes hr => exact hr

/-- After the host's part a step ends blocked only where all that was delivered is consumed and the source has no more. -/
theorem Steps.starved_of_blocked {src : InputSource} {s t : State} (h : Steps (s.supply src) t) (hs : s.Inv)
    (hb : t.blocked = true) : (s.supply src).input.length ≤ s.inPos ∧ src s.inPos = none := by
  have hr : s.run = .running := by simpa using h.running_of_blocked (hs.supply src) hb
  have hle := hs.input
  have hend : (s.supply src).input.length ≤ s.inPos := by
    by_contra hlt
    simp [h.not_blocked (by simpa using hlt)] at hb
  refine ⟨hend, ?_⟩
  rcases s.supply_cases src with ⟨b, _, _, _, e⟩ | ⟨e, hnone⟩ <;> rw [e] at hend
  · simp only [State.answerInput_input, List.length_append, List.length_singleton] at hend
    omega
  · rw [Nat.le_antisymm hle hend]
    exact hnone hr hend

/-- Settles O50: along the run what is delivered is the beginning of the stream, so the byte that a READ takes is the one
numbered by the count of bytes consumed; and a step ends blocked only where the source had nothing to deliver. -/
theorem kthReadTakesKthByte : Obligations.KthReadTakesKthByte := by
  intro cfg src n t u hreach hst
  have ht : t.InRun cfg src := State.inRun_of_reaches hreach
  have hs : (t.supply src).InRun cfg src := ht.supply
  have hsteps : Steps (t.supply src) u := steps_of_step hst
  have hcases := hsteps.inPos_eq_or_takesByte hs.inv.pending
  simp only [State.TakesByte, State.supply_inPos, State.supply_x, State.codeRead?, hs.cfg] at hcases
  refine ⟨?_, fun hb => ?_⟩
  · refine hcases.imp_right ?_
    rintro ⟨b, hv, hpos, hir, reg, hreg, hx⟩
    exact ⟨hpos, reg, b, hs.delivered _ b hv, hir, hreg, hx⟩
  · obtain ⟨hend, hnone⟩ := hsteps.starved_of_blocked ht.inv hb
    refine ⟨hcases.resolve_right ?_, hnone⟩
    rintro ⟨b, hv, _⟩
    cases (List.getElem?_eq_none hend).symm.trans hv

end Sys2Proof.Machine

/-! ## Control flow: JMP, CALL, RET, BEQ and BNE (R160 to R168) -/

namespace Sys2Proof.Machine

/-! ### A jump to its own address loops (R160, R166) -/

/-- An instruction that sets `pc` back to its own address, by whatever the registers decide, loops: its step changes at most
`ir`, and the step after it changes nothing. -/
theorem step_of_ownAddress {s : State} {i : Instr} {rest : List Byte} (hr : s.run = .running) (hp : s.pendingRead = none)
    (hdec : decode s.cfg.opcodeOf (s.codeBytes maxLength s.pc) = .ok (i, rest))
    (hexec : ∀ t : State, t.x = s.x → exec i t = .next { t with pc := s.pc }) :
    step s = .next { s with ir := s.cfg.opcodeOf.of i.mnemonic } ∧
      step { s with ir := s.cfg.opcodeOf.of i.mnemonic } = .next { s with ir := s.cfg.opcodeOf.of i.mnemonic } := by
  have hstep (b : Byte) : step { s with ir := b } = .next { s with ir := s.cfg.opcodeOf.of i.mnemonic } := by
    have hcode : ({ s with ir := b } : State).codeBytes maxLength s.pc = s.codeBytes maxLength s.pc :=
      State.codeBytes_congr (s := { s with ir := b }) rfl maxLength s.pc
    have hrun := stepRunsDecodedInstruction { s with ir := b } i rest hr hp (by rw [hcode, hdec])
    exact hrun.trans (hexec _ rfl)
  exact ⟨hstep s.ir, hstep _⟩

/-! ### JMP, BEQ and BNE -/

/-- Settles O25: the target is unchecked, so the next halt check finds one beyond the image, and a JMP to its own address is
a loop. -/
theorem jmpSetsPc : Obligations.JmpSetsPc := fun s addr =>
  ⟨rfl, (Executes.jmp addr).exec_eq, fun hr hp =>
    ⟨(haltCheckAtImageEnd { s with pc := addr } hr hp).1,
      fun _ hdec => step_of_ownAddress hr hp hdec fun _ _ => (Executes.jmp _).exec_eq⟩⟩

/-- Settles O28: the comparison reads registers only, which a taken BEQ leaves, so at its own address it is taken again. -/
theorem beqBranchesOnEqual : Obligations.BeqBranchesOnEqual := by
  refine fun s addr => ⟨rfl, fun hx => (Executes.beqTaken addr hx).exec_eq, fun hx => (Executes.beqFalls addr hx).exec_eq,
    fun hx hr hp rest hdec => step_of_ownAddress hr hp hdec fun t ht => ?_⟩
  have hx' : t.x[0] = t.x[1] := by rwa [ht]
  exact (Executes.beqTaken _ hx').exec_eq

/-- Settles O29: BNE is taken where BEQ falls through, and the other way round. -/
theorem bneBranchesOnDifferent : Obligations.BneBranchesOnDifferent := by
  refine fun s addr => ⟨rfl, fun hx => (Executes.bneTaken addr hx).exec_eq,
    fun hx => (Executes.bneFalls addr hx).exec_eq, ?_⟩
  by_cases hx : s.x[0] = s.x[1]
  · exact .inr ⟨(Executes.beqTaken addr hx).exec_eq, (Executes.bneFalls addr hx).exec_eq⟩
  · exact .inl ⟨(Executes.bneTaken addr hx).exec_eq, (Executes.beqFalls addr hx).exec_eq⟩

/-! ### CALL and RET -/

theorem State.cstackFull_eq_false_iff {s : State} :
    s.cstackFull = false ↔ ∀ cap, s.cfg.cstackCap = some cap → s.cstack.length ≠ cap := by
  simp only [← Bool.not_eq_true, State.cstackFull_eq_true_iff, not_exists, not_and, ne_eq]

/-- Settles O26: `pc`, which CALL pushes, stands just past its operand, and so gives the address of a CALL that overflows. -/
theorem callPushesReturnAddress : Obligations.CallPushesReturnAddress := by
  refine fun s addr A hpc => ⟨rfl, fun hfree => ?_, fun cap hcap hlen => ?_⟩
  · rw [(Executes.callPushes addr (State.cstackFull_eq_false_iff.mpr hfree)).exec_eq, hpc]
    rfl
  · rw [(Executes.callOverflows addr (State.cstackFull_eq_true_iff.mpr ⟨cap, hcap, hlen⟩)).exec_eq,
      State.origin_eq (m := .call) hpc]
    rfl

/-- Settles O27. -/
theorem retPopsReturnAddress : Obligations.RetPopsReturnAddress := by
  refine fun s A hpc => ⟨rfl, fun target rest hs => (Executes.retPops target rest hs).exec_eq, fun hs => ?_⟩
  rw [(Executes.retUnderflows hs).exec_eq, State.origin_eq (m := .ret) hpc]
  rfl

/-- Settles O30: the address RET pops is the `pc` that CALL pushed. -/
theorem retUndoesCall : Obligations.RetUndoesCall := fun s addr _ hc =>
  ⟨_, (Executes.callPushes addr hc).exec_eq, rfl, (Executes.retPops s.pc s.cstack rfl).exec_eq⟩

/-! ### What the control forms, NOP and INT leave unchanged -/

/-- No control form, nor NOP or INT, updates a register. -/
theorem registerUpdate?_of_control {addr : Byte} {i : Instr}
    (h : i ∈ [Instr.jmp addr, .call addr, .ret, .beq addr, .bne addr, .nop, .int]) : registerUpdate? i = none := by
  simp only [List.mem_cons, List.not_mem_nil, or_false] at h
  rcases h with rfl | rfl | rfl | rfl | rfl | rfl | rfl <;> rfl

/-- Settles O35: the ways these instructions go set `pc`, push, pop, make one report or count one acknowledgement. -/
theorem controlFormsFrame : Obligations.ControlFormsFrame := by
  intro addr i s t hi ht
  cases exec_eq_next_iff.mp ht with
  | update hu => cases hu.symm.trans (registerUpdate?_of_control hi)
  | store | readTakes | readWaits | write => simp at hi
  | callPushes | callOverflows =>
    obtain rfl : _ = addr := by simpa using hi
    simp
  | _ => simp

end Sys2Proof.Machine

/-! ## The interrupt interface: INT (R180) -/

namespace Sys2Proof.Machine

/-- Settles O31: INT goes in one way only, by `State.ackInt`, and so has no other effect than its acknowledge event. -/
theorem intOnlyAcknowledges : Obligations.IntOnlyAcknowledges := fun s =>
  ⟨rfl, (Executes.int : Executes s .int s.ackInt).exec_eq⟩

end Sys2Proof.Machine

/-! ## Errors, halts and the status interface (R200 to R209, R218) -/

namespace Sys2Proof.Machine

/-- Settles O14. -/
theorem everyStepAnswersNext : Obligations.EveryStepAnswersNext :=
  ⟨fun i s => (exec_executes i s).imp fun _ => And.left, exists_step⟩

/-! ### One diagnostic a step (R207) -/

/-- From `s` to `t` there is no diagnostic and no failure, or one diagnostic and a failure exactly if it is fatal (R201,
R202, R207). -/
def State.LogsAtMostOnce (s t : State) : Prop :=
  (t.diag = s.diag ∧ t.run ≠ .haltedError) ∨
    ∃ d, t.diag = s.diag ++ [d] ∧ t.run ≠ .haltedNormal ∧ (d.kind.fatal = true ↔ t.run = .haltedError)

theorem Executes.logsAtMostOnce {s t : State} {i : Instr} (h : Executes s i t) (hr : s.run = .running) :
    s.LogsAtMostOnce t := by
  rcases h.log_cases with ⟨hrun, hdiag | ⟨d, hdiag, hd⟩⟩ | ⟨hrun, d, hdiag, hd⟩
  · exact .inl ⟨hdiag, by simp [hrun, hr]⟩
  · exact .inr ⟨d, hdiag, by simp [hrun, hr, hd]⟩
  · exact .inr ⟨d, hdiag, by simp [hrun, hd]⟩

/-- Settles O42: a fetch that fails raises one fatal diagnostic and leaves no execute phase to make another. -/
theorem oneDiagnosticPerStep : Obligations.OneDiagnosticPerStep := by
  intro s t hr h
  cases steps_of_step h with
  | halted hr' => exact absurd hr hr'
  | waiting _ _ he => exact he.logsAtMostOnce hr
  | haltsNormally => exact .inl (by simp)
  | @fetchFails _ _ d _ _ _ hd => exact .inr ⟨d, by simp [hd]⟩
  | executes _ _ _ _ _ _ he => exact he.logsAtMostOnce (s := s.consume _) hr

/-! ### What a fatal error leaves (R201, R208) -/

/-- The only fatal error of an execute phase is CALL's on a full stack (R162, R203). -/
theorem Executes.overflows {s t : State} {i : Instr} (h : Executes s i t) (hr : s.run = .running)
    (ht : t.run = .haltedError) : i.mnemonic = .call ∧ t = s.raise (.callStackOverflow (s.origin .call)) := by
  cases h with
  | callOverflows => exact ⟨rfl, rfl⟩
  | _ => simp [hr] at ht

theorem State.head?_codeBytes {s : State} {b : Byte} {n : Nat} {A : Byte} (hb : s.codeRead? A = some b) :
    (s.codeBytes (n + 1) A).head? = some b := by
  rw [State.codeBytes_cons hb, List.head?_cons]

/-- A step in which a READ waits does not fail. -/
theorem State.pendingRead_of_fails {s t : State} (hr : s.run = .running) (h : step s = .next t)
    (ht : t.run = .haltedError) : s.pendingRead = none := by
  cases hp : s.pendingRead with
  | none => rfl
  | some reg =>
    have he : Executes s (.read reg) t := exec_eq_next_iff.mp ((step_of_waiting hr hp).symm.trans h)
    cases (he.overflows hr ht).1

/-- Settles O44: the two phases that can fail before execute raise on the fetched state, and so does CALL, whose address
is two bytes before the `pc` its fetches left. -/
theorem fatalErrorIsPrecise : Obligations.FatalErrorIsPrecise := by
  intro s t hr h ht
  have hp : s.pendingRead = none := State.pendingRead_of_fails hr h ht
  rcases fetchDecode_cases s with ⟨_, hf⟩ | ⟨b, hb, _, hf⟩ | ⟨b, tail, m, hw, hb, _, ha, hf⟩ |
    ⟨b, tail, m, _, hb, hm, ha, hf⟩
  · cases (step_of_ended hr hp hf).symm.trans h
    cases ht
  · cases (step_of_ended hr hp hf).symm.trans h
    exact ⟨b, _, 1, State.head?_codeBytes hb, rfl, .inl ⟨rfl, rfl⟩⟩
  · cases (step_of_ended hr hp hf).symm.trans h
    have hlen : (b :: tail).length < maxLength := Nat.succ_lt_succ (ha.trans_le m.arity_le_two)
    exact ⟨b, _, _, State.head?_codeBytes hb, rfl, .inr (.inl ⟨rfl, by rw [hw], hlen⟩)⟩
  · have he := exec_eq_next_iff.mp ((step_of_run hr hp hf).symm.trans h)
    obtain ⟨hi, rfl⟩ := he.overflows hr ht
    obtain rfl : m = .call := (Instr.mnemonic_ofOperands m _ _).symm.trans hi
    rw [State.consume_instruction hm ha, State.origin_eq (A := s.pc) rfl, OpcodeMap.of_mnemonicOf? hm]
    exact ⟨b, _, 2, State.head?_codeBytes hb, rfl, .inr (.inr ⟨rfl, rfl⟩)⟩

/-! ### The status interface (R203, R218) -/

/-- The fatal kinds have the codes 1 to 3 (R203). -/
theorem ErrorKind.code_of_fatal {k : ErrorKind} (h : k.fatal = true) : 1 ≤ k.code ∧ k.code ≤ 3 := by
  cases k with
  | unknownOpcode | truncatedInstruction | callStackOverflow => decide
  | invalidIndex | callStackUnderflow => cases h

theorem State.statusCode_of_not_error {s : State} (h : s.run ≠ .haltedError) : s.statusCode = 0 := by
  unfold State.statusCode
  cases hr : s.run with
  | haltedError => exact absurd hr h
  | running | haltedNormal => rfl

/-- The search for the last fatal entry ends at once where the log ends with one. -/
theorem State.statusCode_of_fatal {s : State} {earlier : List Diag} {d : Diag} (hr : s.run = .haltedError)
    (hlog : s.diag = earlier ++ [d]) (hd : d.kind.fatal = true) : s.statusCode = d.kind.code := by
  simp [State.statusCode, hr, hlog, hd]

/-- The log of a failed run ends with a fatal entry (R201). -/
theorem State.logMatchesRun.ends_fatal {s : State} (h : s.logMatchesRun) (hr : s.run = .haltedError) :
    ∃ earlier d, s.diag = earlier ++ [d] ∧ d.kind.fatal = true := by
  unfold State.logMatchesRun at h
  rw [hr] at h
  obtain ⟨earlier, d, hlog, hd, -⟩ := h
  exact ⟨earlier, d, hlog, hd⟩

/-- Settles O56: the invariant gives a failed run a fatal last entry, whose code is shown; no other run shows one. -/
theorem statusShowsFatalCode : Obligations.StatusShowsFatalCode := by
  refine fun s hs => ⟨rfl, ?_⟩
  by_cases hr : s.run = .haltedError
  · obtain ⟨earlier, d, hlog, hd⟩ := hs.log.ends_fatal hr
    have hcode : s.status.2 = d.kind.code := State.statusCode_of_fatal hr hlog hd
    obtain ⟨hpos, hle⟩ := ErrorKind.code_of_fatal hd
    exact ⟨⟨fun _ => hr, fun _ => by omega⟩, fun _ => ⟨earlier, d, hlog, hcode, by omega⟩⟩
  · have hcode : s.status.2 = 0 := State.statusCode_of_not_error hr
    exact ⟨⟨fun h => absurd hcode h, fun h => absurd h hr⟩, fun h => absurd h hr⟩

end Sys2Proof.Machine
